-- ==== Sys2Proof/Word.lean ====
section
/-! DEFINITION. The words, bits and symbols the codec works on (00_scope.md R10, R11; 30_encoding.md R86). -/

namespace Sys2Proof

/-- A command or status word: 32 bits (10_state.md R30). -/
abbrev Word := BitVec 32

/-- A bit sequence, index 0 the leading symbol (00_scope.md R10, 20_memory.md R61). `true` is the bit 1;
`xor` of bits is addition modulo 2 (R11). -/
abbrev Bits := List Bool

/-- One input symbol: 2 bits, `NB` = bit 1, `B` = bit 0 (30_encoding.md R86). -/
abbrev Symbol := BitVec 2

/-- `zeros(k)` of 00_scope.md R10. -/
def zeros (k : Nat) : Bits := List.replicate k false

end Sys2Proof
end

