-- ==== Sys2Proof/Config.lean ====
section
/-! DEFINITION. The implementation parameters of 00_scope.md R8, at the values of its table. -/

namespace Sys2Proof.Config

/-- `LEN_MAX`, capacity of `IBUF` (R8). DESIGN CHOICE, unsafe for a build of another capacity: log 2. -/
abbrev lenMax : Nat := 1024

/-- `DLEN_MIN`, least legal divisor length (R8). -/
abbrev dlenMin : Nat := 2

/-- `DLEN_MAX`, greatest divisor length, width of `DIV` (R8). DESIGN CHOICE, unsafe for a build of another
capacity: log 2. -/
abbrev dlenMax : Nat := 64

/-- `CW_MAX`, capacity of `CWBUF` (R8). -/
abbrev cwMax : Nat := lenMax + dlenMax - 1

/-- `OUT_MAX`, capacity of `OBUF` (R8). -/
abbrev outMax : Nat := 2 * (lenMax + dlenMax - 1)

/-- `DEFAULT_DIVISOR`, the sequence `1101` (R8). -/
def defaultDivisor : Bits := [true, true, false, true]

end Sys2Proof.Config
end

