-- ==== Sys2Proof/Syntax.lean ====
section
/-! DEFINITION. The six commands of 30_encoding.md R90, with every field of the command word. -/

namespace Sys2Proof

/-- The fields of `CMDW` beside `OP` (30_encoding.md R81). Every command carries all of them; which ones an
operation uses is R89's table (`Machine/Operands.lean`). -/
structure Fields where
  /-- `DSEL`, `CMDW[3]`: `false` the default divisor, `true` the explicit one (R83). -/
  dsel : Bool
  /-- `N`, `CMDW[15:8]`: the stuffing threshold (R84). -/
  n    : BitVec 8
  /-- `DLEN`, `CMDW[23:16]`: the length of the explicit divisor (R85). -/
  dlen : BitVec 8
deriving DecidableEq, Repr

/-- The commands, one constructor per row of spec/opcode_table.json (R90). -/
inductive Instr where
  /-- `OP = 0`: remainder of the message (40_crc.md R113). -/
  | generateCrc (f : Fields)
  /-- `OP = 1`: verdict on a received codeword (40_crc.md R120). -/
  | verifyCrc (f : Fields)
  /-- `OP = 2`: marker insertion (41_stuffing.md R141). -/
  | stuff (f : Fields)
  /-- `OP = 3`: marker removal (41_stuffing.md R150). -/
  | unstuff (f : Fields)
  /-- `OP = 4`: the send path (42_pipeline.md R175). -/
  | encodeFrame (f : Fields)
  /-- `OP = 5`: the receive path (42_pipeline.md R180). -/
  | decodeFrame (f : Fields)
deriving DecidableEq, Repr

end Sys2Proof
end

