-- ==== Sys2Proof/WellFormed.lean ====
section
/-! DEFINITION. Well-formed commands, as far as the command word alone tells (10_state.md R22, "Legal values"). -/

namespace Sys2Proof

/-- `DLEN` is legal where it is used: `DLEN_MIN` to `DLEN_MAX` when `DSEL = 1` (10_state.md R22). -/
def Fields.divisorLengthLegal (f : Fields) : Bool :=
  !f.dsel || (decide (Config.dlenMin ≤ f.dlen.toNat) && decide (f.dlen.toNat ≤ Config.dlenMax))

/-- The command's fields have legal values (10_state.md R22). `N = 0` is legal: it is representable and is
rejected, not refused. A command that is not well formed is refused by `exec` (30_encoding.md R88, R92); the
rest of R88 is about the contents of `DIV` and is checked there too. -/
def Instr.wellFormed : Instr → Bool
  | .generateCrc f => f.divisorLengthLegal
  | .verifyCrc f => f.divisorLengthLegal
  | .stuff _ => true
  | .unstuff _ => true
  | .encodeFrame f => f.divisorLengthLegal
  | .decodeFrame f => f.divisorLengthLegal

end Sys2Proof
end

