-- ==== Sys2Proof/Decode.lean ====
section
/-! DEFINITION. The decoder of 30_encoding.md R90 on the 32-bit command word, then the encoder (R81). -/

namespace Sys2Proof

/-- Why a command word spells no command. -/
inductive DecodeError where
  /-- `CMDW[7:4]` or `CMDW[31:24]` is nonzero (30_encoding.md R92). -/
  | reservedBits
  /-- `OP` is 6 or 7 (30_encoding.md R91). -/
  | reservedOp
deriving DecidableEq, Repr

/-- `OP`, `CMDW[2:0]` (30_encoding.md R81). -/
def opField (w : Word) : BitVec 3 := w.extractLsb' 0 3

/-- `DSEL`, `N` and `DLEN` (30_encoding.md R81). -/
def fieldsOf (w : Word) : Fields :=
  { dsel := w.getLsbD 3, n := w.extractLsb' 8 8, dlen := w.extractLsb' 16 8 }

/-- Both reserved fields are zero (30_encoding.md R90: `(CMDW & 0xFF0000F0) != 0` is reserved). -/
def reservedZero (w : Word) : Bool := w &&& 0xFF0000F0#32 == 0#32

/-- The decoder of 30_encoding.md R90; `OP` values by R82. -/
def decode (w : Word) : Except DecodeError Instr :=
  if reservedZero w then
    match (opField w).toNat with
    | 0 => .ok (.generateCrc (fieldsOf w))
    | 1 => .ok (.verifyCrc (fieldsOf w))
    | 2 => .ok (.stuff (fieldsOf w))
    | 3 => .ok (.unstuff (fieldsOf w))
    | 4 => .ok (.encodeFrame (fieldsOf w))
    | 5 => .ok (.decodeFrame (fieldsOf w))
    | _ => .error .reservedOp
  else .error .reservedBits

/-- The pattern `00000000 LLLLLLLL NNNNNNNN 0000 S PPP` of 30_encoding.md R81. -/
def commandWord (op : BitVec 3) (f : Fields) : Word :=
  0#8 ++ f.dlen ++ f.n ++ 0#4 ++ BitVec.ofBool f.dsel ++ op

/-- The command word of a command (30_encoding.md R81, R82). -/
def encode : Instr → Word
  | .generateCrc f => commandWord 0 f
  | .verifyCrc f => commandWord 1 f
  | .stuff f => commandWord 2 f
  | .unstuff f => commandWord 3 f
  | .encodeFrame f => commandWord 4 f
  | .decodeFrame f => commandWord 5 f

/-- A command word given as a number: its low `nbits` bits, the rest zero. -/
def tableWord (nbits w : Nat) : Word := BitVec.ofNat 32 (w % 2 ^ nbits)

/-- What the decoder reads from a word numbered as spec/opcode_table.json numbers it. -/
def decodeTableWord (nbits w : Nat) : Option Instr :=
  match decode (tableWord nbits w) with
  | .ok i => some i
  | .error _ => none

end Sys2Proof
end

