-- ==== Sys2Proof/Machine/State.lean ====
section
/-! DEFINITION. The codec's state (10_state.md R20 to R30), its reset (R45), and why a command or a host access
can stop. -/

namespace Sys2Proof.Machine

/-- One buffer space (20_memory.md R60): the entries that hold a value, by index. An index that is not listed
holds no value (10_state.md R45, 20_memory.md R64; log 5). -/
abbrev Memory (α : Type) := List (Nat × α)

/-- The persistent state: command state, written by the host, and response state, written by the codec
(10_state.md R20). The transients are local to the commands (R38). -/
structure State where
  /-- `CMDW` (R22). -/
  cmdw   : BitVec 32
  /-- `DIV`, `DLEN_MAX` bits (R23). -/
  div    : BitVec 64
  /-- `ILEN` (R24, R30). -/
  ilen   : BitVec 16
  /-- `IBUF` (R25). -/
  ibuf   : Memory Symbol
  /-- `STATUS` (R26). -/
  status : BitVec 32
  /-- `OLEN` (R28, R30). -/
  olen   : BitVec 16
  /-- `OBUF` (R28). -/
  obuf   : Memory Bool
  /-- `CWLEN` (R29, R30). -/
  cwlen  : BitVec 16
  /-- `CWBUF` (R29). -/
  cwbuf  : Memory Bool
deriving DecidableEq, Repr

/-- The state after reset (10_state.md R45, 70_reset_and_hazards.md R240): every register 0, no buffer entry with
a value. -/
def State.reset : State :=
  { cmdw := 0, div := 0, ilen := 0, ibuf := [], status := 0, olen := 0, obuf := [], cwlen := 0, cwbuf := [] }

/-- The kinds of input-validation failure (60_exceptions.md R200 (a) to (c)). -/
inductive ErrorKind where
  /-- Code 1: a symbol other than 0/1 (R201). -/
  | invalidAlphabet
  /-- Code 2: zero length (R202). -/
  | emptyInput
  /-- Code 3: the threshold is not a positive integer (R203). -/
  | invalidThreshold
deriving DecidableEq, Repr

/-- What a unit hands back when a command completes (10_state.md R26 to R29, R37): error kind, verdict, `OUT`, `CW`. -/
structure Response where
  /-- `none` when the command was accepted (60_exceptions.md R205, code 0). -/
  err   : Option ErrorKind
  /-- The `VALID` flag (10_state.md R27). -/
  valid : Bool
  /-- `OUT`, bound to `OBUF` and `OLEN`. -/
  out   : Bits
  /-- `CW`, bound to `CWBUF` and `CWLEN`. -/
  cw    : Bits
deriving DecidableEq, Repr

/-- Faults: there are none. "There are no other exceptions" than the rejections, which are next states, and "no
access fault" (60_exceptions.md R207); "No condition in this core is fatal to the process" (R221). An access the spec
gives no meaning is a refusal. -/
inductive Fault where
deriving DecidableEq, Repr

/-- Refusals: the spec gives the command or the access no meaning (60_exceptions.md R213). All are safe: nothing
is claimed of what the hardware does there. -/
inductive Refusal where
  /-- Raised by `exec` for a command without a meaning here; no arm raises it. Safe. -/
  | notModelled (mnemonic : String)
  /-- Raised by `step`: a nonzero reserved bit in `CMDW` (30_encoding.md R92, U2). Safe. -/
  | reservedBits
  /-- Raised by `step`: `OP` is 6 or 7 (30_encoding.md R91, U1). Safe. -/
  | reservedOp
  /-- Raised by a command that uses a divisor and presents one that is not well formed (30_encoding.md R88, R92,
  U3). Safe. -/
  | illFormedDivisor
  /-- Raised by any command with `ILEN > LEN_MAX` (30_encoding.md R92, U4). Safe. -/
  | inputTooLong
  /-- Raised by any command whose input includes an `IBUF` entry that holds no value (10_state.md R45,
  93_implementation_defined.md U6). DEDUCED, safe (log 3). -/
  | inputNotWritten
  /-- Raised by the host port: a read of a buffer entry that has no value (20_memory.md R64, U6). Safe. -/
  | entryWithoutValue
  /-- Raised by the host port: a write to `IBUF` at an index the buffer does not have (20_memory.md R60). DEDUCED,
  safe (log 7). -/
  | noSuchEntry
deriving DecidableEq, Repr

/-- The three outcomes, for this machine. -/
abbrev Result := Host.Outcome State Fault Refusal

end Sys2Proof.Machine
end

