-- ==== Sys2Proof/Machine/Flags.lean ====
section
/-! DEFINITION. The flags: the fields of `STATUS` (10_state.md R26, R27, R41; 30_encoding.md R95). -/

namespace Sys2Proof.Machine

/-- The error code of a kind (60_exceptions.md R205). -/
def ErrorKind.code : ErrorKind → BitVec 2
  | .invalidAlphabet => 1
  | .emptyInput => 2
  | .invalidThreshold => 3

/-- `ERR` of a response: 0 when the command was accepted (60_exceptions.md R205). -/
def errCode : Option ErrorKind → BitVec 2
  | none => 0
  | some k => k.code

/-- `STATUS[1:0] = ERR`, `STATUS[2] = VALID`, `STATUS[31:3] = 0` (30_encoding.md R95). -/
def statusWord (err : BitVec 2) (valid : Bool) : Word := 0#29 ++ BitVec.ofBool valid ++ err

/-- `ERR`, `STATUS[1:0]` (10_state.md R26). -/
def State.err (s : State) : BitVec 2 := s.status.extractLsb' 0 2

/-- `VALID`, `STATUS[2]` (10_state.md R26). -/
def State.valid (s : State) : Bool := s.status.getLsbD 2

end Sys2Proof.Machine
end

