-- ==== Sys2Proof/Machine/Ops.lean ====
section
/-! DEFINITION. The operations over buffers and registers: symbol access (00_scope.md R13), completing a command
(10_state.md R31) and rejecting one (60_exceptions.md R210). -/

namespace Sys2Proof.Machine

variable {α : Type}

/-- `MemRead(BUF, k)` (00_scope.md R13): `none` where the entry holds no value. -/
def Memory.read : Memory α → Nat → Option α
  | [], _ => none
  | (j, v) :: m, k => if j = k then some v else Memory.read m k

/-- `MemWrite(BUF, k, v)` (00_scope.md R13), keeping the entries in rising order of index. -/
def Memory.write : Memory α → Nat → α → Memory α
  | [], k, v => [(k, v)]
  | (j, u) :: m, k, v =>
    if k < j then (k, v) :: (j, u) :: m
    else if k = j then (k, v) :: m
    else (j, u) :: Memory.write m k v

/-- The entries stand in strictly rising order of index, from `lo` on and below `cap`. -/
def Memory.risingFrom (cap : Nat) : Nat → Memory α → Bool
  | _, [] => true
  | lo, (j, _) :: m => decide (lo ≤ j) && decide (j < cap) && Memory.risingFrom cap (j + 1) m

/-- The canonical form of a buffer of `cap` entries: strictly rising indices, all below `cap`. An unlisted entry
has no value, so no listed entry can equal what an unlisted one reads as. -/
def Memory.wf (cap : Nat) (m : Memory α) : Bool := Memory.risingFrom cap 0 m

/-- The buffer that holds exactly the sequence given, its first symbol at index `lo`. -/
def Memory.ofSeqFrom : Nat → List α → Memory α
  | _, [] => []
  | lo, v :: vs => (lo, v) :: Memory.ofSeqFrom (lo + 1) vs

/-- The buffer that holds exactly the sequence given, index 0 its leading symbol (20_memory.md R60, R61). -/
def Memory.ofSeq (vs : List α) : Memory α := Memory.ofSeqFrom 0 vs

/-- The `count` entries from index `lo` on, or `none` if one of them holds no value. -/
def Memory.readSeqFrom (m : Memory α) : Nat → Nat → Option (List α)
  | _, 0 => some []
  | lo, count + 1 =>
    match m.read lo, Memory.readSeqFrom m (lo + 1) count with
    | some v, some vs => some (v :: vs)
    | _, _ => none

/-- The sequence held: entries 0 to `len - 1` (20_memory.md R60). -/
def Memory.readSeq (m : Memory α) (len : Nat) : Option (List α) := m.readSeqFrom 0 len

/-- A length as the value of a 16-bit length register (10_state.md R30). No length that occurs exceeds `OUT_MAX`
(20_memory.md R66), so nothing is cut off (log 8). -/
def lengthWord (vs : Bits) : BitVec 16 := BitVec.ofNat 16 vs.length

/-- Completion of a command: the whole response state is written once, and nothing else (10_state.md R31, R37).
Entries at or above the new length hold no value, not the leftover of an earlier command (20_memory.md R64; log 4). -/
def complete (r : Response) (s : State) : State :=
  { s with
    status := statusWord (errCode r.err) r.valid
    olen   := lengthWord r.out
    obuf   := Memory.ofSeq r.out
    cwlen  := lengthWord r.cw
    cwbuf  := Memory.ofSeq r.cw }

/-- Rejection, this hardware's one way of taking an exception (60_exceptions.md R210): `STATUS` is the code,
`VALID`, `OLEN` and `CWLEN` are 0; no saved context, no handler, so no return operation either (R220). -/
def reject (k : ErrorKind) (s : State) : State :=
  complete { err := some k, valid := false, out := [], cw := [] } s

/-- The command word a `step` performs: `CMDW` as it stands at issue (10_state.md R31, 20_memory.md R73). -/
def fetchCommand (s : State) : Word := s.cmdw

/-- The refusal that answers a word the decoder does not accept (30_encoding.md R91, R92). -/
def refusalOf : DecodeError → Refusal
  | .reservedBits => .reservedBits
  | .reservedOp => .reservedOp

end Sys2Proof.Machine
end

