-- ==== Sys2Proof/Machine/Operands.lean ====
section
/-! DEFINITION. Operand assembly (30_encoding.md R86 to R89), the front end (42_pipeline.md R171, R172), and the
order of events in a command (R170). -/

namespace Sys2Proof.Machine

/-- What an operation uses beside the input (30_encoding.md R89). -/
structure Uses where
  /-- The threshold `N`. -/
  threshold : Bool
  /-- The divisor: `DSEL`, `DLEN`, `DIV`. -/
  divisor   : Bool
deriving DecidableEq, Repr

/-- The operands of a command once assembled (30_encoding.md R87). -/
structure Operands where
  /-- `D`; empty for an operation that uses none. -/
  divisor : Bits
  /-- `N`, unsigned, as it stands (R84). -/
  n       : Nat
  /-- `IN`. -/
  input   : List Symbol
deriving DecidableEq, Repr

/-- `isbit(y)`: `NB = 0` (30_encoding.md R86). -/
def isBit (y : Symbol) : Bool := !y.getLsbD 1

/-- The bit a binary symbol carries: `B` (30_encoding.md R86). -/
def bitOf (y : Symbol) : Bool := y.getLsbD 0

/-- `D[k] = DIV[L-1-k]` for `0 <= k < L` (10_state.md R23). -/
def explicitDivisor (div : BitVec 64) (len : Nat) : Bits :=
  (List.range len).map fun k => div.getLsbD (len - 1 - k)

/-- `DIV[DLEN_MAX-1:L] = 0` (30_encoding.md R88). -/
def upperBitsZero (div : BitVec 64) (len : Nat) : Bool := decide (div.toNat < 2 ^ len)

/-- The divisor in use (10_state.md R33, 30_encoding.md R87), or `none` when it is not well formed (R88). -/
def selectDivisor (f : Fields) (div : BitVec 64) : Option Bits :=
  if f.dsel then
    let len := f.dlen.toNat
    if Config.dlenMin ≤ len ∧ len ≤ Config.dlenMax ∧ div.getLsbD (len - 1) = true ∧ upperBitsZero div len = true then
      some (explicitDivisor div len)
    else none
  else some Config.defaultDivisor

/-- `IN <- IBUF[0], ..., IBUF[ILEN-1]` (30_encoding.md R87), with the refusals for an input that is too long (R92)
or that includes an entry without a value (log 3). -/
def assembleInput (s : State) : Except Refusal (List Symbol) :=
  if s.ilen.toNat ≤ Config.lenMax then
    match s.ibuf.readSeq s.ilen.toNat with
    | some syms => .ok syms
    | none => .error .inputNotWritten
  else .error .inputTooLong

/-- Operand assembly at issue (30_encoding.md R87). The refusal named is that of the first part that fails; the
spec gives all of them alike no response (log 6). -/
def assemble (u : Uses) (f : Fields) (s : State) : Except Refusal Operands :=
  match (if u.divisor then selectDivisor f s.div else some []) with
  | none => .error .illFormedDivisor
  | some d =>
    match assembleInput s with
    | .error r => .error r
    | .ok syms => .ok { divisor := d, n := f.n.toNat, input := syms }

/-- The front end (42_pipeline.md R171): the first check that fails decides the kind. The order of the threshold
check is the spec's decision D11 (log 9). An accepted input is a non-empty sequence of bits. -/
def frontEnd (u : Uses) (o : Operands) : Except ErrorKind Bits :=
  if o.input = [] then .error .emptyInput
  else if o.input.all isBit = false then .error .invalidAlphabet
  else if u.threshold = true ∧ o.n = 0 then .error .invalidThreshold
  else .ok (o.input.map bitOf)

/-- One command, in the order of 42_pipeline.md R170: assemble (or refuse), validate (or reject), run the unit on
the divisor, the threshold and the accepted input, write the response. -/
def perform (u : Uses) (f : Fields) (unit : Bits → Nat → Bits → Response) (s : State) : Result :=
  match assemble u f s with
  | .error r => .refused r
  | .ok o =>
    match frontEnd u o with
    | .error k => .next (reject k s)
    | .ok bits => .next (complete (unit o.divisor o.n bits) s)

/-- The operation uses the threshold (30_encoding.md R89, 42_pipeline.md R172). -/
def usesThreshold : Instr → Bool
  | .generateCrc _ => false
  | .verifyCrc _ => false
  | .stuff _ => true
  | .unstuff _ => true
  | .encodeFrame _ => true
  | .decodeFrame _ => true

/-- The operation uses the divisor fields (30_encoding.md R89). -/
def usesDivisor : Instr → Bool
  | .generateCrc _ => true
  | .verifyCrc _ => true
  | .stuff _ => false
  | .unstuff _ => false
  | .encodeFrame _ => true
  | .decodeFrame _ => true

/-- The fields of a command, whatever its operation. -/
def fieldsOfInstr : Instr → Fields
  | .generateCrc f => f
  | .verifyCrc f => f
  | .stuff f => f
  | .unstuff f => f
  | .encodeFrame f => f
  | .decodeFrame f => f

/-- The row of 30_encoding.md R89 for a command. -/
def usesOf (i : Instr) : Uses := { threshold := usesThreshold i, divisor := usesDivisor i }

end Sys2Proof.Machine
end

