-- ==== Sys2Proof/Machine/Crc.lean ====
section
/-! DEFINITION. The CRC engine (40_crc.md): the division primitive, `generate_crc` and `verify_crc`. -/

namespace Sys2Proof.Machine

/-- XOR of the leading symbols of `W` with `D`, symbol by symbol (the window at index 0). -/
def xorLead : Bits → Bits → Bits
  | [], w => w
  | _ :: _, [] => []
  | d :: ds, b :: bs => (b ^^ d) :: xorLead ds bs

/-- XOR of the window of `W` that starts at index `i` with `D` (40_crc.md R111, the inner loop). -/
def xorWindow : Nat → Bits → Bits → Bits
  | 0, d, w => xorLead d w
  | _ + 1, _, [] => []
  | i + 1, d, b :: w => b :: xorWindow i d w

/-- One position of the division (40_crc.md R111): if the bit at `i`, as changed so far, is 1, XOR the window. -/
def divPosition (d w : Bits) (i : Nat) : Bits :=
  if w.getD i false = true then xorWindow i d w else w

/-- `Div2(W, D)` (40_crc.md R111): positions 0 to `len(W) - L` in rising order; none when `len(W) < L`. -/
def div2 (w d : Bits) : Bits :=
  (List.range (w.length + 1 - d.length)).foldl (divPosition d) w

/-- `last(s, k)` (00_scope.md R10). -/
def lastBits (s : Bits) (k : Nat) : Bits := s.drop (s.length - k)

/-- `allzero(s)` (00_scope.md R10). -/
def allZero (s : Bits) : Bool := s.all (! ·)

/-- The unit of `generate_crc` (40_crc.md R113): the remainder only. -/
def generateCrc (m d : Bits) : Bits :=
  lastBits (div2 (m ++ zeros (d.length - 1)) d) (d.length - 1)

/-- The unit of `verify_crc` (40_crc.md R120), with R121's reading of a short `C` (the spec's decision D18; log 9). -/
def verifyCrc (c d : Bits) : Bool :=
  let w := div2 c d
  allZero (lastBits w (min w.length (d.length - 1)))

/-- `generate_crc` (40_crc.md R113): `OBUF` the remainder, no verdict, no codeword. -/
def execGenerateCrc (f : Fields) (s : State) : Result :=
  perform { threshold := false, divisor := true } f
    (fun d _ m => { err := none, valid := false, out := generateCrc m d, cw := [] }) s

/-- `verify_crc` (40_crc.md R120): the verdict in `VALID`, no output. -/
def execVerifyCrc (f : Fields) (s : State) : Result :=
  perform { threshold := false, divisor := true } f
    (fun d _ c => { err := none, valid := verifyCrc c d, out := [], cw := [] }) s

end Sys2Proof.Machine
end

