-- ==== Sys2Proof/Machine/Stuffing.lean ====
section
/-! DEFINITION. The bit-stuffer and the bit-unstuffer (41_stuffing.md). -/

namespace Sys2Proof.Machine

/-- The rest of a `stuff` pass (41_stuffing.md R141) with the run counter at `cnt`. -/
def stuffFrom (n : Nat) : Nat → Bits → Bits
  | _, [] => []
  | _, false :: s => false :: stuffFrom n 0 s
  | cnt, true :: s =>
    if cnt + 1 = n then true :: false :: stuffFrom n 0 s else true :: stuffFrom n (cnt + 1) s

/-- The unit of `stuff` (41_stuffing.md R141): `CNT` starts at 0. -/
def stuff (s : Bits) (n : Nat) : Bits := stuffFrom n 0 s

/-- The rest of an `unstuff` pass (41_stuffing.md R150) with the run counter at `cnt`. The test is the equality
`CNT = N`, and without a skip the counter runs on (R151, the spec's decision D17; log 9). -/
def unstuffFrom (n : Nat) : Nat → Bits → Bits
  | _, [] => []
  | _, false :: s => false :: unstuffFrom n 0 s
  | cnt, true :: false :: s =>
    if cnt + 1 = n then true :: unstuffFrom n 0 s else true :: unstuffFrom n (cnt + 1) (false :: s)
  | cnt, true :: s => true :: unstuffFrom n (cnt + 1) s

/-- The unit of `unstuff` (41_stuffing.md R150): `CNT` starts at 0. -/
def unstuff (s : Bits) (n : Nat) : Bits := unstuffFrom n 0 s

/-- `stuff` (41_stuffing.md R141): `OBUF` the stuffed sequence, no verdict, no codeword. -/
def execStuff (f : Fields) (s : State) : Result :=
  perform { threshold := true, divisor := false } f
    (fun _ n b => { err := none, valid := false, out := stuff b n, cw := [] }) s

/-- `unstuff` (41_stuffing.md R150): `OBUF` the unstuffed sequence, no verdict, no codeword. -/
def execUnstuff (f : Fields) (s : State) : Result :=
  perform { threshold := true, divisor := false } f
    (fun _ n b => { err := none, valid := false, out := unstuff b n, cw := [] }) s

end Sys2Proof.Machine
end

