-- ==== Sys2Proof/Machine/Pipeline.lean ====
section
/-! DEFINITION. The pipeline sequencer (42_pipeline.md): `encode_frame` and `decode_frame`. -/

namespace Sys2Proof.Machine

/-- The codeword `M ++ R` of the send path (42_pipeline.md R175). -/
def codeword (m d : Bits) : Bits := m ++ generateCrc m d

/-- The frame of the send path: the codeword, stuffed (42_pipeline.md R175). -/
def encodeFrame (m : Bits) (n : Nat) (d : Bits) : Bits := stuff (codeword m d) n

/-- message': all but the last `L-1` symbols of codeword' (42_pipeline.md R180, R182); empty when codeword' is too
short (R183, the spec's decision D19; log 9). -/
def messagePart (cw d : Bits) : Bits := cw.take (cw.length - (d.length - 1))

/-- `encode_frame` (42_pipeline.md R175): `OBUF` the frame, `CWBUF` the codeword, no verdict. -/
def execEncodeFrame (f : Fields) (s : State) : Result :=
  perform { threshold := true, divisor := true } f
    (fun d n m => { err := none, valid := false, out := encodeFrame m n d, cw := codeword m d }) s

/-- `decode_frame` (42_pipeline.md R180): `CWBUF` codeword', `OBUF` message' whatever the verdict, `VALID` the verdict
over the whole of codeword'. -/
def execDecodeFrame (f : Fields) (s : State) : Result :=
  perform { threshold := true, divisor := true } f
    (fun d n b =>
      { err := none, valid := verifyCrc (unstuff b n) d, out := messagePart (unstuff b n) d, cw := unstuff b n }) s

end Sys2Proof.Machine
end

