-- ==== Sys2Proof/Machine/Dispatch.lean ====
section
/-! DEFINITION. One arm per command. -/

namespace Sys2Proof.Machine

/-- The meaning of a command. -/
def exec (i : Instr) (s : State) : Host.Outcome State Fault Refusal :=
  match i with
  | .generateCrc f => Sys2Proof.Machine.execGenerateCrc f s
  | .verifyCrc f => Sys2Proof.Machine.execVerifyCrc f s
  | .stuff f => Sys2Proof.Machine.execStuff f s
  | .unstuff f => Sys2Proof.Machine.execUnstuff f s
  | .encodeFrame f => Sys2Proof.Machine.execEncodeFrame f s
  | .decodeFrame f => Sys2Proof.Machine.execDecodeFrame f s

end Sys2Proof.Machine
end

