-- ==== Sys2Proof/Machine/Step.lean ====
section
/-! DEFINITION. One step: the command that stands in the command state is issued and completes (00_scope.md R6,
20_memory.md R65; log 1). -/

namespace Sys2Proof.Machine

/-- Issue of the command in the command state (42_pipeline.md R170): decode `CMDW`, then perform the command; a
word that spells no command is refused (30_encoding.md R91, R92). -/
def step (s : State) : Host.Outcome State Fault Refusal :=
  match decode (fetchCommand s) with
  | .ok i => exec i s
  | .error e => .refused (refusalOf e)

/-- `s` with a command word in `CMDW`, where `step` takes its next command: the host's write of it (log 1). -/
def State.withFetchWord (s : State) (nbits w : Nat) : State := { s with cmdw := tableWord nbits w }

end Sys2Proof.Machine
end

