-- ==== Sys2Proof/Machine/HostPort.lean ====
section
/-! DEFINITION. The host side of the interface: register and buffer access (10_state.md R30, 20_memory.md R64, R65),
the host's actions (70_reset_and_hazards.md R252) and commands as the host forms them (30_encoding.md R96). -/

namespace Sys2Proof.Machine

/-- The registers, by name (10_state.md R30). -/
inductive Reg where
  | cmdw | div | ilen | status | olen | cwlen
deriving DecidableEq, Repr

/-- The buffers, by name (10_state.md R30: A, B, C). -/
inductive BufferName where
  | ibuf | obuf | cwbuf
deriving DecidableEq, Repr

/-- The register's number, a label (10_state.md R30). -/
def Reg.number : Reg → Nat
  | .cmdw => 0
  | .div => 1
  | .ilen => 2
  | .status => 3
  | .olen => 4
  | .cwlen => 5

/-- The register's width in bits (10_state.md R30). -/
def Reg.width : Reg → Nat
  | .cmdw => 32
  | .div => 64
  | .ilen => 16
  | .status => 32
  | .olen => 16
  | .cwlen => 16

/-- What a host read of a register gives, as an unsigned number. Every register is host-readable (10_state.md R30). -/
def hostReadRegister (r : Reg) (s : State) : Nat :=
  match r with
  | .cmdw => s.cmdw.toNat
  | .div => s.div.toNat
  | .ilen => s.ilen.toNat
  | .status => s.status.toNat
  | .olen => s.olen.toNat
  | .cwlen => s.cwlen.toNat

/-- The 2-bit code of a bit (30_encoding.md R86). -/
def symbolOf (b : Bool) : Symbol := if b then 1 else 0

/-- What a host read of entry `k` of a buffer gives: a value only below the length register and only where one was
written (20_memory.md R64, 93_implementation_defined.md U6). A bit is given as its symbol code. -/
def hostReadBuffer (b : BufferName) (k : Nat) (s : State) : Option Symbol :=
  match b with
  | .ibuf => if k < s.ilen.toNat then s.ibuf.read k else none
  | .obuf => if k < s.olen.toNat then (s.obuf.read k).map symbolOf else none
  | .cwbuf => if k < s.cwlen.toNat then (s.cwbuf.read k).map symbolOf else none

/-- What the host may do (70_reset_and_hazards.md R252; access rights by 10_state.md R30). -/
inductive HostAction where
  | writeCmdw (v : BitVec 32)
  | writeDiv (v : BitVec 64)
  | writeIlen (v : BitVec 16)
  | writeIbuf (k : Nat) (y : Symbol)
  | writeStatus (v : BitVec 32)
  | writeOlen (v : BitVec 16)
  | writeCwlen (v : BitVec 16)
  | writeObuf (k : Nat) (b : Bool)
  | writeCwbuf (k : Nat) (b : Bool)
  | readRegister (r : Reg)
  | readBuffer (b : BufferName) (k : Nat)
  | issue
  | reset
deriving DecidableEq, Repr

/-- A host write of one input symbol. `IBUF` has entries 0 to `LEN_MAX - 1` (20_memory.md R60); a write
at an index beyond has no meaning and is refused: there is no access fault (60_exceptions.md R207; log 7). -/
def hostWriteIbuf (k : Nat) (y : Symbol) (s : State) : Result :=
  if k < Config.lenMax then .next { s with ibuf := s.ibuf.write k y } else .refused .noSuchEntry

/-- One host action. A write to the command state stores the value and does nothing else, a read changes nothing
(20_memory.md R65); a write to a read-only register or buffer has no effect (10_state.md R30); reset acts between
commands (70_reset_and_hazards.md R240, R241). -/
def hostAct (a : HostAction) (s : State) : Result :=
  match a with
  | .writeCmdw v => .next { s with cmdw := v }
  | .writeDiv v => .next { s with div := v }
  | .writeIlen v => .next { s with ilen := v }
  | .writeIbuf k y => hostWriteIbuf k y s
  | .writeStatus _ => .next s
  | .writeOlen _ => .next s
  | .writeCwlen _ => .next s
  | .writeObuf _ _ => .next s
  | .writeCwbuf _ _ => .next s
  | .readRegister _ => .next s
  | .readBuffer b k => if (hostReadBuffer b k s).isSome then .next s else .refused .entryWithoutValue
  | .issue => step s
  | .reset => .next State.reset

/-- Host actions one after another, in the order given (20_memory.md R70 (a)), up to the first stop. -/
def runHost : List HostAction → State → Result
  | [], s => .next s
  | a :: rest, s =>
    match hostAct a s with
    | .next t => runHost rest t
    | .fault r => .fault r
    | .refused r => .refused r

/-- A command as the host forms it: the items of the command state (30_encoding.md R80). -/
structure Command where
  /-- The operation with its fields. -/
  instr : Instr
  /-- The value for `DIV`. -/
  div   : BitVec 64
  /-- The input sequence. -/
  input : List Symbol
deriving DecidableEq, Repr

/-- Host writes of a sequence to `IBUF`, from index `k` on. -/
def writeInput : Nat → List Symbol → List HostAction
  | _, [] => []
  | k, y :: ys => .writeIbuf k y :: writeInput (k + 1) ys

/-- The host's writes before the issue of a command (70_reset_and_hazards.md R242). `ILEN` is given the low 16 bits
of the length; an input longer than `LEN_MAX` is never issued, since the write of its entry `LEN_MAX` is refused.
DESIGN CHOICE (log 11). -/
def Command.prepare (c : Command) : List HostAction :=
  .writeCmdw (encode c.instr) :: .writeDiv c.div :: .writeIlen (BitVec.ofNat 16 c.input.length) ::
    writeInput 0 c.input

/-- Preparing and issuing a command (70_reset_and_hazards.md R252). -/
def Command.actions (c : Command) : List HostAction := c.prepare ++ [.issue]

/-- The mnemonics of 30_encoding.md R90. -/
inductive Operation where
  | generate_crc | verify_crc | stuff | unstuff | encode_frame | decode_frame
deriving DecidableEq, Repr

/-- The command of an operation with the fields given (30_encoding.md R82). -/
def Operation.instr : Operation → Fields → Instr
  | .generate_crc, f => .generateCrc f
  | .verify_crc, f => .verifyCrc f
  | .stuff, f => .stuff f
  | .unstuff, f => .unstuff f
  | .encode_frame, f => .encodeFrame f
  | .decode_frame, f => .decodeFrame f

/-- The one-line textual form of a command (30_encoding.md R96), its parts already told apart:
`<mnemonic> in="<symbols>" [n=<decimal>] [d="<bits>"]`. -/
structure CommandLine where
  op    : Operation
  /-- The characters between the quotes of `in`. -/
  input : List Char
  /-- `n`, given exactly for the operations that use `N`. -/
  n     : Option (BitVec 8)
  /-- `d`; absent means `DSEL = 0`. -/
  d     : Option (List Char)
deriving DecidableEq, Repr

/-- `0`, `1`, and `x` for a non-binary symbol (30_encoding.md R96), coded 0, 1, 2 (95_test_vectors.md, Notation). -/
def symbolOfChar (c : Char) : Option Symbol :=
  if c = '0' then some 0 else if c = '1' then some 1 else if c = 'x' then some 2 else none

/-- The symbols of a string (30_encoding.md R96); `none` if it holds another character. -/
def symbolsOfChars : List Char → Option (List Symbol)
  | [] => some []
  | c :: cs =>
    match symbolOfChar c, symbolsOfChars cs with
    | some y, some ys => some (y :: ys)
    | _, _ => none

/-- The bits of a string of `0` and `1`; `none` if it holds another character. -/
def bitsOfChars (cs : List Char) : Option Bits :=
  match symbolsOfChars cs with
  | some ys => if ys.all isBit then some (ys.map bitOf) else none
  | none => none

/-- The register value of a divisor: the string read as a binary numeral (10_state.md R23). Of a string longer than
`DIV` the low 64 bits are taken; R96 does not say, and R88 refuses every command that uses such a divisor.
DESIGN CHOICE (log 11). -/
def divisorNumeral (d : Bits) : BitVec 64 :=
  BitVec.ofNat 64 (d.foldl (fun v b => 2 * v + b.toNat) 0)

/-- The command a line spells (30_encoding.md R96): `n` exactly where `N` is used, `DSEL = 1` exactly when `d` is
given; fields not given are written 0. `none` if the line has not that form.

DESIGN CHOICE (log 11), where R96 is silent: a `d` of 256 symbols or more, whose length `DLEN` cannot hold, spells no
command (`none`). A `d` of 65 to 255 symbols spells a command with `DLEN` its true length and `DIV` the low 64 bits of
its numeral; whatever `DIV` holds, R88 refuses it where the divisor is used, because `DLEN > DLEN_MAX`. -/
def CommandLine.command (c : CommandLine) : Option Command :=
  match symbolsOfChars c.input with
  | none => none
  | some ys =>
    if c.n.isSome = usesThreshold (c.op.instr { dsel := false, n := 0, dlen := 0 }) then
      match c.d with
      | none =>
        some { instr := c.op.instr { dsel := false, n := c.n.getD 0, dlen := 0 }, div := 0, input := ys }
      | some cs =>
        match bitsOfChars cs with
        | none => none
        | some d =>
          if d.length < 256 then
            some
              { instr := c.op.instr { dsel := true, n := c.n.getD 0, dlen := BitVec.ofNat 8 d.length }
                div := divisorNumeral d
                input := ys }
          else none
    else none

end Sys2Proof.Machine
end

