-- ==== Sys2Proof/Machine/Reference.lean ====
section
/-! DEFINITION. Reference forms the spec gives beside the normative ones (40_crc.md R127, 41_stuffing.md R154) and the
notions its laws are stated with: polynomials over GF(2), error patterns, runs of ones. `exec` does not call these. -/

namespace Sys2Proof.Machine

/-- Symbol by symbol `xor` of two sequences of equal length (40_crc.md R124). -/
def xorBits : Bits → Bits → Bits
  | a :: as, b :: bs => (a ^^ b) :: xorBits as bs
  | _, _ => []

/-- The product of two sequences as polynomials over GF(2) (00_scope.md R10): each set symbol of `q` adds a copy of
`d` shifted to its place. Its length is `len(q) + len(d) - 1`. -/
def polyMul : Bits → Bits → Bits
  | [], d => zeros (d.length - 1)
  | b :: q, d => xorLead (if b then d else []) (false :: polyMul q d)

/-- `E(x)` is a multiple of `D(x)` (40_crc.md R124): the product of `D` and a quotient, of the length of `E`; a
sequence shorter than `D` is one only if it is all zeros. -/
def IsMultiple (e d : Bits) : Prop :=
  if e.length < d.length then allZero e = true else ∃ q : Bits, q.length + d.length = e.length + 1 ∧ polyMul q d = e

/-- The error pattern `x^k` in `len` symbols: a single 1 at distance `k` from the low-order end (40_crc.md R125). -/
def singleError (len k : Nat) : Bits := (zeros len).set (len - 1 - k) true

/-- One shift of the serial form (40_crc.md R127): `fb` is the leading register bit; shift in `b`; if `fb`, XOR with
`D[1 .. L)`. -/
def serialShift (d r : Bits) (b : Bool) : Bits :=
  let shifted := r.drop 1 ++ [b]
  if r.getD 0 false = true then xorBits shifted (d.drop 1) else shifted

/-- The serial form of the division (40_crc.md R127): the register after the last symbol. -/
def serialRemainder (w d : Bits) : Bits := w.foldl (serialShift d) (zeros (d.length - 1))

/-- The streaming form of the unstuffer (41_stuffing.md R154), with `CNT` at `cnt` and `ARMED` at `armed`. -/
def streamFrom (n : Nat) : Nat → Bool → Bits → Bits
  | _, _, [] => []
  | cnt, armed, b :: s =>
    if armed = true ∧ b = false then streamFrom n 0 false s
    else if b = true then true :: streamFrom n (cnt + 1) (decide (cnt + 1 = n)) s
    else false :: streamFrom n 0 false s

/-- The streaming form of `unstuff` (41_stuffing.md R154). -/
def streamUnstuff (s : Bits) (n : Nat) : Bits := streamFrom n 0 false s

/-- The lengths of the maximal runs of ones of a sequence (with a 0 where two zeros meet), the current run being
`cnt` long already (41_stuffing.md R143 (a)). -/
def oneRunsFrom : Nat → Bits → List Nat
  | cnt, [] => [cnt]
  | cnt, true :: s => oneRunsFrom (cnt + 1) s
  | cnt, false :: s => cnt :: oneRunsFrom 0 s

/-- The lengths of the maximal runs of ones (41_stuffing.md R143 (a)). -/
def oneRuns (s : Bits) : List Nat := oneRunsFrom 0 s

/-- `k` ones. -/
def ones (k : Nat) : Bits := List.replicate k true

end Sys2Proof.Machine
end

