-- ==== Sys2Proof/Machine/Iterations.lean ====
section
/-! DEFINITION. One iteration of each unit's loop (70_reset_and_hazards.md R258), with the unit's own registers
(10_state.md R34 to R37) as its state, written after the pseudocode line by line. Stages.lean steps a whole command
through them. `exec` does not run these; statements say that they compute what the units compute. -/

namespace Sys2Proof.Machine

/-- The transients of the CRC engine: `W` and `I` (10_state.md R34, R35). -/
structure DivRegs where
  w : Bits
  i : Nat
deriving DecidableEq, Repr

/-- The CRC engine loaded with `W`, `I` at 0 (10_state.md R34, R35). -/
def divStart (w : Bits) : DivRegs := { w := w, i := 0 }

/-- The inner loop of `Div2` at position `i` (40_crc.md R111): `W[I+j] <- W[I+j] xor D[j]` for `j` from 0. -/
def xorLoop (d : Bits) (i : Nat) (w : Bits) : Bits :=
  (List.range d.length).foldl (fun w j => w.set (i + j) (w.getD (i + j) false ^^ d.getD j false)) w

/-- One iteration of the loop of `Div2` (40_crc.md R111). -/
def divIteration (d : Bits) (r : DivRegs) : DivRegs :=
  { w := if r.w.getD r.i false = true then xorLoop d r.i r.w else r.w, i := r.i + 1 }

/-- `Div2` by iterations: one for each `I` from 0 to `len(W) - L` (40_crc.md R111). -/
def divLoop (w d : Bits) : DivRegs := Nat.iterate (divIteration d) (w.length + 1 - d.length) (divStart w)

/-- The transients of the stuffer: `I`, `CNT`, `OUT` (10_state.md R35 to R37). -/
structure StuffRegs where
  i   : Nat
  cnt : Nat
  out : Bits
deriving DecidableEq, Repr

/-- The stuffer at its start (10_state.md R35 to R37). -/
def stuffStart : StuffRegs := { i := 0, cnt := 0, out := [] }

/-- One iteration of the stuffer's loop over `S` (41_stuffing.md R141). Past the end nothing happens. -/
def stuffIteration (s : Bits) (n : Nat) (r : StuffRegs) : StuffRegs :=
  match s[r.i]? with
  | none => r
  | some false => { i := r.i + 1, cnt := 0, out := r.out ++ [false] }
  | some true =>
    if r.cnt + 1 = n then { i := r.i + 1, cnt := 0, out := r.out ++ [true] ++ [false] }
    else { i := r.i + 1, cnt := r.cnt + 1, out := r.out ++ [true] }

/-- `stuff` by iterations: one for each input bit (41_stuffing.md R141). -/
def stuffLoop (s : Bits) (n : Nat) : StuffRegs :=
  Nat.iterate (stuffIteration s n) s.length stuffStart

/-- The transients of the unstuffer: its own `I`, `CNT`, `OUT` (41_stuffing.md R155). -/
structure UnstuffRegs where
  i   : Nat
  cnt : Nat
  out : Bits
deriving DecidableEq, Repr

/-- The unstuffer at its start (10_state.md R35 to R37). -/
def unstuffStart : UnstuffRegs := { i := 0, cnt := 0, out := [] }

/-- One iteration of the unstuffer's loop over `S` (41_stuffing.md R150). Past the end nothing happens. -/
def unstuffIteration (s : Bits) (n : Nat) (r : UnstuffRegs) : UnstuffRegs :=
  match s[r.i]? with
  | none => r
  | some false => { i := r.i + 1, cnt := 0, out := r.out ++ [false] }
  | some true =>
    if r.cnt + 1 = n ∧ s[r.i + 1]? = some false then { i := r.i + 2, cnt := 0, out := r.out ++ [true] }
    else { i := r.i + 1, cnt := r.cnt + 1, out := r.out ++ [true] }

/-- `unstuff` by iterations: at most `len(S)` of them (70_reset_and_hazards.md R257). -/
def unstuffLoop (s : Bits) (n : Nat) : UnstuffRegs :=
  Nat.iterate (unstuffIteration s n) s.length unstuffStart

end Sys2Proof.Machine
end

