-- ==== Sys2Proof/Machine/Stages.lean ====
section
/-! DEFINITION. A command stepped through its stages and loops, the optional finer step of 70_reset_and_hazards.md
R258: the stages in the order of 42_pipeline.md R170, the transients of 10_state.md R33 to R37 as the step state, one
iteration of a unit's loop a step. `step` does not run these; statements say that they perform the same command. -/

namespace Sys2Proof.Machine

/-- One iteration of the loop of `Div2`, `none` once `I` has passed `len(W) - L` (40_crc.md R111). -/
def divNext (d : Bits) (r : DivRegs) : Option DivRegs :=
  if r.i + d.length ≤ r.w.length then some (divIteration d r) else none

/-- One iteration of the stuffer's loop, `none` once `I` has reached `len(S)` (41_stuffing.md R141). -/
def stuffNext (s : Bits) (n : Nat) (r : StuffRegs) : Option StuffRegs :=
  if r.i < s.length then some (stuffIteration s n r) else none

/-- One iteration of the unstuffer's loop, `none` once `I` has reached `len(S)` (41_stuffing.md R150). -/
def unstuffNext (s : Bits) (n : Nat) (r : UnstuffRegs) : Option UnstuffRegs :=
  if r.i < s.length then some (unstuffIteration s n r) else none

/-- The unit at work and its own registers: one phase for a primitive, two for a pipeline operation, whose units run one
after the other (42_pipeline.md R175, R180). Units share no register (10_state.md R32, 41_stuffing.md R155). -/
inductive Phase where
  /-- `generate_crc`: `Div2` on the padded message (40_crc.md R113). -/
  | generateCrc (r : DivRegs)
  /-- `verify_crc`: `Div2` on the whole input (40_crc.md R120). -/
  | verifyCrc (r : DivRegs)
  /-- `stuff` on the input (41_stuffing.md R141). -/
  | stuff (r : StuffRegs)
  /-- `unstuff` on the input (41_stuffing.md R150). -/
  | unstuff (r : UnstuffRegs)
  /-- `encode_frame`, first line: `generate_crc` on the message (42_pipeline.md R175). -/
  | encodeGenerate (r : DivRegs)
  /-- `encode_frame`, third line: `stuff` on `CW` (42_pipeline.md R175). -/
  | encodeStuff (r : StuffRegs)
  /-- `decode_frame`, first line: `unstuff` on the frame (42_pipeline.md R180). -/
  | decodeUnstuff (r : UnstuffRegs)
  /-- `decode_frame`, last line: `verify_crc` on `CW` (42_pipeline.md R180). -/
  | decodeVerify (r : DivRegs)
deriving DecidableEq, Repr

/-- The transients of a command whose units run: those of the command itself, and the phase with its unit's. -/
structure Work where
  /-- `D` (10_state.md R33). -/
  d     : Bits
  /-- `N` (30_encoding.md R87). -/
  n     : Nat
  /-- `IN`, accepted: a sequence of bits (42_pipeline.md R171). -/
  input : Bits
  /-- `OUT` of the command (10_state.md R37), set where a further unit runs after it. -/
  out   : Bits
  /-- `CW`, the codeword passed between units (10_state.md R37). -/
  cw    : Bits
  /-- The unit at work. -/
  phase : Phase
deriving DecidableEq, Repr

/-- Where a command stands (42_pipeline.md R170). -/
inductive Stage where
  /-- Issued: step (1), decode and assemble, is next. -/
  | issued
  /-- Assembled: step (2), the front end, is next. -/
  | assembled (i : Instr) (o : Operands)
  /-- Accepted: step (3), the units run. -/
  | running (t : Work)
  /-- The units have ended: step (4), the write of the response, is next. -/
  | responding (r : Response)
  /-- Completed or rejected: nothing more happens. -/
  | ended
deriving DecidableEq, Repr

/-- The persistent state, which alone the host can see, and where the command stands. -/
structure Progress where
  state : State
  stage : Stage
deriving DecidableEq, Repr

/-- The remainder in `W` after the division (40_crc.md R113). -/
def remainderOf (d : Bits) (r : DivRegs) : Bits := lastBits r.w (d.length - 1)

/-- The verdict read from `W` after the division (40_crc.md R120). -/
def verdictOf (d : Bits) (r : DivRegs) : Bool := allZero (lastBits r.w (min r.w.length (d.length - 1)))

/-- The first unit of a command, at its start, on the accepted input. -/
def firstPhase (i : Instr) (d b : Bits) : Phase :=
  match i with
  | .generateCrc _ => .generateCrc (divStart (b ++ zeros (d.length - 1)))
  | .verifyCrc _ => .verifyCrc (divStart b)
  | .stuff _ => .stuff stuffStart
  | .unstuff _ => .unstuff unstuffStart
  | .encodeFrame _ => .encodeGenerate (divStart (b ++ zeros (d.length - 1)))
  | .decodeFrame _ => .decodeUnstuff unstuffStart

/-- An accepted command, its first unit at its start; `OUT` and `CW` start empty (10_state.md R37). -/
def startWork (i : Instr) (o : Operands) (b : Bits) : Work :=
  { d := o.divisor, n := o.n, input := b, out := [], cw := [], phase := firstPhase i o.divisor b }

/-- Step (3) by one: an iteration of the loop of the unit at work or, when its loop has ended, what the operation's
pseudocode does with the unit's result, up to the start of the next unit or of the response. -/
def workStep (t : Work) : Stage :=
  match t.phase with
  | .generateCrc r =>
    match divNext t.d r with
    | some r' => .running { t with phase := .generateCrc r' }
    | none => .responding { err := none, valid := false, out := remainderOf t.d r, cw := t.cw }
  | .verifyCrc r =>
    match divNext t.d r with
    | some r' => .running { t with phase := .verifyCrc r' }
    | none => .responding { err := none, valid := verdictOf t.d r, out := t.out, cw := t.cw }
  | .stuff r =>
    match stuffNext t.input t.n r with
    | some r' => .running { t with phase := .stuff r' }
    | none => .responding { err := none, valid := false, out := r.out, cw := t.cw }
  | .unstuff r =>
    match unstuffNext t.input t.n r with
    | some r' => .running { t with phase := .unstuff r' }
    | none => .responding { err := none, valid := false, out := r.out, cw := t.cw }
  | .encodeGenerate r =>
    match divNext t.d r with
    | some r' => .running { t with phase := .encodeGenerate r' }
    | none => .running { t with cw := t.input ++ remainderOf t.d r, phase := .encodeStuff stuffStart }
  | .encodeStuff r =>
    match stuffNext t.cw t.n r with
    | some r' => .running { t with phase := .encodeStuff r' }
    | none => .responding { err := none, valid := false, out := r.out, cw := t.cw }
  | .decodeUnstuff r =>
    match unstuffNext t.input t.n r with
    | some r' => .running { t with phase := .decodeUnstuff r' }
    | none =>
      .running { t with out := messagePart r.out t.d, cw := r.out, phase := .decodeVerify (divStart r.out) }
  | .decodeVerify r =>
    match divNext t.d r with
    | some r' => .running { t with phase := .decodeVerify r' }
    | none => .responding { err := none, valid := verdictOf t.d r, out := t.out, cw := t.cw }

/-- Steps (1) to (4) of 42_pipeline.md R170, one at a time. The state changes only in the write of the response or in a
rejection (10_state.md R31, R37). -/
def innerStep (p : Progress) : Host.Outcome Progress Fault Refusal :=
  match p.stage with
  | .issued =>
    match decode (fetchCommand p.state) with
    | .error e => .refused (refusalOf e)
    | .ok i =>
      match assemble (usesOf i) (fieldsOfInstr i) p.state with
      | .error r => .refused r
      | .ok o => .next { p with stage := .assembled i o }
  | .assembled i o =>
    match frontEnd (usesOf i) o with
    | .error k => .next { state := reject k p.state, stage := .ended }
    | .ok b => .next { p with stage := .running (startWork i o b) }
  | .running t => .next { p with stage := workStep t }
  | .responding r => .next { state := complete r p.state, stage := .ended }
  | .ended => .next p

/-- `k` inner steps, stopping at a refusal. -/
def innerRun : Nat → Progress → Host.Outcome Progress Fault Refusal
  | 0, p => .next p
  | k + 1, p =>
    match innerStep p with
    | .next q => innerRun k q
    | .fault e => .fault e
    | .refused r => .refused r

/-- The issue of the command in the command state. -/
def issueCommand (s : State) : Progress := { state := s, stage := .issued }

end Sys2Proof.Machine
end

