-- ==== Sys2Proof/Safety.lean ====
section
/-! DEFINITION. What counts as a sound state, which commands the spec gives a meaning, and how a state presents its
operands: the terms the statements are written in. They are read from the spec, not from the functions `exec` calls. -/

namespace Sys2Proof.Machine

/-- A buffer holds a value at exactly the indices below its length (10_state.md R28, R29; 20_memory.md R64). -/
abbrev Memory.Holds (m : Memory Bool) (len : Nat) : Prop := m.map Prod.fst = List.range len

/-- `ILEN` apart, the input buffer is in canonical form within its capacity (20_memory.md R60). -/
abbrev State.InputSound (s : State) : Prop := s.ibuf.wf Config.lenMax = true

/-- The output buffers hold exactly what their length registers say, within their capacities (20_memory.md R66). -/
abbrev State.OutputSound (s : State) : Prop :=
  s.obuf.Holds s.olen.toNat ∧ s.olen.toNat ≤ Config.outMax ∧
  s.cwbuf.Holds s.cwlen.toNat ∧ s.cwlen.toNat ≤ Config.cwMax

/-- `STATUS` has one of its five possible values, and an error leaves no output (30_encoding.md R95). -/
abbrev State.StatusSound (s : State) : Prop :=
  (s.status = 0x0 ∨ s.status = 0x4 ∨ s.status = 0x1 ∨ s.status = 0x2 ∨ s.status = 0x3) ∧
  (s.err ≠ 0 → s.valid = false ∧ s.olen = 0 ∧ s.cwlen = 0)

/-- The invariant of the codec's state. -/
abbrev State.Inv (s : State) : Prop := s.InputSound ∧ s.OutputSound ∧ s.StatusSound

/-- A well-formed divisor as a sequence: at least two symbols, the leading one 1 (30_encoding.md R88). The bound
`DLEN_MAX` belongs to `DIV` (`SelectsDivisor`). -/
abbrev DivisorWellFormed (d : Bits) : Prop := 2 ≤ d.length ∧ d[0]? = some true

/-- In state `s` a command with fields `f` presents the well-formed divisor `d` (10_state.md R33, 30_encoding.md R87,
R88): the default `1101` when `DSEL = 0`; otherwise `DLEN` symbols, at most `DLEN_MAX` = 64 (log 2), with `d[k] = DIV[DLEN-1-k]` and zeros above. -/
abbrev SelectsDivisor (f : Fields) (s : State) (d : Bits) : Prop :=
  if f.dsel = true then
    d.length = f.dlen.toNat ∧ d.length ≤ 64 ∧ DivisorWellFormed d ∧
    (∀ k < d.length, d[k]? = some (s.div.getLsbD (d.length - 1 - k))) ∧
    (∀ j < 64, d.length ≤ j → s.div.getLsbD j = false)
  else d = [true, true, false, true]

/-- In state `s` the input sequence is `ys` (10_state.md R24, R25; `ILEN <= LEN_MAX` = 1024, log 2). -/
abbrev PresentsSymbols (s : State) (ys : List Symbol) : Prop :=
  s.ilen.toNat = ys.length ∧ ys.length ≤ 1024 ∧ ∀ k < ys.length, s.ibuf.read k = ys[k]?

/-- In state `s` the input is the non-empty bit sequence `b`, coded as 30_encoding.md R86 says. -/
abbrev PresentsBits (s : State) (b : Bits) : Prop := b ≠ [] ∧ PresentsSymbols s (b.map symbolOf)

/-- The command presents `d` where its operation uses a divisor (30_encoding.md R89); the stuffer and the unstuffer
use none. -/
abbrev PresentsDivisor (i : Instr) (s : State) (d : Bits) : Prop :=
  match i with
  | .generateCrc f => SelectsDivisor f s d
  | .verifyCrc f => SelectsDivisor f s d
  | .stuff _ => True
  | .unstuff _ => True
  | .encodeFrame f => SelectsDivisor f s d
  | .decodeFrame f => SelectsDivisor f s d

/-- Every symbol of the input has been written (70_reset_and_hazards.md R242). -/
def InputWritten (s : State) : Prop := ∀ k < s.ilen.toNat, (s.ibuf.read k).isSome = true

/-- The spec gives command `i` a response in state `s`: its divisor, if used, is well formed, its input fits (`LEN_MAX`
= 1024, log 2) and has been written (30_encoding.md R92, 70_reset_and_hazards.md R242; the last by log 3). -/
def Presentable (i : Instr) (s : State) : Prop :=
  (∃ d, PresentsDivisor i s d) ∧ s.ilen.toNat ≤ 1024 ∧ InputWritten s

/-- The command state the codec reads: `CMDW`, `DIV`, `ILEN`, `IBUF[0..ILEN)` (10_state.md R31). -/
def SameCommand (s t : State) : Prop :=
  s.cmdw = t.cmdw ∧ s.div = t.div ∧ s.ilen = t.ilen ∧ ∀ k < s.ilen.toNat, s.ibuf.read k = t.ibuf.read k

/-- The response state is the same: the tuple of 30_encoding.md R95. -/
def SameResponse (s t : State) : Prop :=
  s.status = t.status ∧ s.olen = t.olen ∧ s.obuf = t.obuf ∧ s.cwlen = t.cwlen ∧ s.cwbuf = t.cwbuf

/-- Two outcomes tell the host the same: next states with the same response, or the same stop. -/
def SameOutcome : Result → Result → Prop
  | .next s, .next t => SameResponse s t
  | .fault p, .fault q => p = q
  | .refused p, .refused q => p = q
  | _, _ => False

/-- The codec has left the command state alone (10_state.md R31). -/
def CommandKept (s t : State) : Prop := t.cmdw = s.cmdw ∧ t.div = s.div ∧ t.ilen = s.ilen ∧ t.ibuf = s.ibuf

/-- The CRC engine's registers at work on `len` symbols: `W` keeps its length (10_state.md R34) and `I` stops after the
last position of a window (40_crc.md R111). -/
def DivRegs.Sound (d : Bits) (len : Nat) (r : DivRegs) : Prop := r.w.length = len ∧ r.i ≤ len + 1 - d.length

/-- The stuffer's registers at work on `s`: `I` stops at the end (10_state.md R40), `CNT` is below `N` between iterations
(41_stuffing.md R142 (g)), `OUT` holds what was copied and at most one marker for each (R143 (a)). -/
def StuffRegs.Sound (s : Bits) (n : Nat) (r : StuffRegs) : Prop :=
  r.i ≤ s.length ∧ r.cnt < n ∧ r.i ≤ r.out.length ∧ r.out.length ≤ 2 * r.i

/-- The unstuffer's registers at work on `s`: `I` stops at the end (10_state.md R40); `CNT`, which may pass `N`
(R36), and `OUT` count symbols already scanned. -/
def UnstuffRegs.Sound (s : Bits) (r : UnstuffRegs) : Prop := r.i ≤ s.length ∧ r.cnt ≤ r.i ∧ r.out.length ≤ r.i

/-- The transients of a command at work: the unit's registers in their bounds, `OUT` and `CW` empty until a unit has
handed them on (10_state.md R37), `CW` as long as the codeword (42_pipeline.md R175, R180). -/
def Work.Sound (t : Work) : Prop :=
  match t.phase with
  | .generateCrc r => r.Sound t.d (t.input.length + (t.d.length - 1)) ∧ t.out = [] ∧ t.cw = []
  | .verifyCrc r => r.Sound t.d t.input.length ∧ t.out = [] ∧ t.cw = []
  | .stuff r => r.Sound t.input t.n ∧ t.out = [] ∧ t.cw = []
  | .unstuff r => r.Sound t.input ∧ t.out = [] ∧ t.cw = []
  | .encodeGenerate r =>
    r.Sound t.d (t.input.length + (t.d.length - 1)) ∧ 1 ≤ t.n ∧ t.out = [] ∧ t.cw = []
  | .encodeStuff r => r.Sound t.cw t.n ∧ t.out = [] ∧ t.cw.length = t.input.length + (t.d.length - 1)
  | .decodeUnstuff r => r.Sound t.input ∧ t.out = [] ∧ t.cw = []
  | .decodeVerify r => r.Sound t.d t.cw.length ∧ t.out = messagePart t.cw t.d ∧ t.cw.length ≤ t.input.length

/-- The transients are sound wherever the command has any. -/
def Progress.Sound (p : Progress) : Prop := ∀ t, p.stage = .running t → t.Sound

/-- A state the host can bring the codec to from reset (70_reset_and_hazards.md R252). -/
def Reachable (s : State) : Prop := ∃ acts, runHost acts State.reset = .next s

end Sys2Proof.Machine
end

