-- ==== Sys2Proof/Certificates/Slice0/Obligations.lean ====
section
/-! DEFINITION. The statements for the provers, read from the spec's rules. Where a rule or a clause is the spec's own
decision, derivation or general knowledge, or the model's choice, the docstring says so. -/

open Sys2Proof Sys2Proof.Machine

/-! ## Encoding -/

/-- 30_encoding.md R81 (layout by the spec's decision D3): "Numerically `CMDW = OP + 8*DSEL + 256*N + 65536*DLEN`." -/
def Obligations.CommandWordIsTheSumOfItsFields : Prop :=
  ∀ f : Fields,
    let rest := 8 * f.dsel.toNat + 256 * f.n.toNat + 65536 * f.dlen.toNat
    (encode (.generateCrc f)).toNat = 0 + rest ∧ (encode (.verifyCrc f)).toNat = 1 + rest ∧
    (encode (.stuff f)).toNat = 2 + rest ∧ (encode (.unstuff f)).toNat = 3 + rest ∧
    (encode (.encodeFrame f)).toNat = 4 + rest ∧ (encode (.decodeFrame f)).toNat = 5 + rest

/-- Decoding the command word of any command, with every value of every field, gives that command back. -/
def Obligations.DecodeOfEncodeIsTheCommand : Prop := ∀ i : Instr, decode (encode i) = .ok i

/-- A word that decodes to a command is that command's word: no bit of an accepted word is dropped. -/
def Obligations.EncodeOfDecodeIsTheWord : Prop := ∀ (w : Word) (i : Instr), decode w = .ok i → encode i = w

/-- 30_encoding.md R90: the opcode map by match and mask, and the decoder's reserved cases. -/
def Obligations.DecoderFollowsTheOpcodeMap : Prop :=
  ∀ w : Word,
    let f : Fields := { dsel := w.getLsbD 3, n := w.extractLsb' 8 8, dlen := w.extractLsb' 16 8 }
    (w &&& 0xFF0000F7 = 0x00000000 ↔ decode w = .ok (.generateCrc f)) ∧
    (w &&& 0xFF0000F7 = 0x00000001 ↔ decode w = .ok (.verifyCrc f)) ∧
    (w &&& 0xFF0000F7 = 0x00000002 ↔ decode w = .ok (.stuff f)) ∧
    (w &&& 0xFF0000F7 = 0x00000003 ↔ decode w = .ok (.unstuff f)) ∧
    (w &&& 0xFF0000F7 = 0x00000004 ↔ decode w = .ok (.encodeFrame f)) ∧
    (w &&& 0xFF0000F7 = 0x00000005 ↔ decode w = .ok (.decodeFrame f)) ∧
    (w &&& 0xFF0000F0 ≠ 0 ↔ decode w = .error .reservedBits) ∧
    (w &&& 0xFF0000F0 = 0 ∧ (w &&& 7 = 6 ∨ w &&& 7 = 7) ↔ decode w = .error .reservedOp)

/-- Written-out words, at least one for each operation: the two words of 30_encoding.md R98, four that
95_test_vectors.md prints (0x0001010A in section 5; 0x00050008, 0x00000001, 0x0005010D in section 6), and 0x00000503,
which is composed by R81 for `unstuff` with `N = 5` and is printed nowhere. -/
def Obligations.WrittenOutWordsDecode : Prop :=
  decode 0x0004030C = .ok (.encodeFrame { dsel := true, n := 3, dlen := 4 }) ∧
  decode 0x00000304 = .ok (.encodeFrame { dsel := false, n := 3, dlen := 0 }) ∧
  decode 0x00050008 = .ok (.generateCrc { dsel := true, n := 0, dlen := 5 }) ∧
  decode 0x00000001 = .ok (.verifyCrc { dsel := false, n := 0, dlen := 0 }) ∧
  decode 0x0001010A = .ok (.stuff { dsel := true, n := 1, dlen := 1 }) ∧
  decode 0x00000503 = .ok (.unstuff { dsel := false, n := 5, dlen := 0 }) ∧
  decode 0x0005010D = .ok (.decodeFrame { dsel := true, n := 1, dlen := 5 })

/-! ## The step, and what is refused -/

/-- A step performs the command that `CMDW` decodes to (42_pipeline.md R170 (1)); nothing is added around it. -/
def Obligations.StepPerformsTheDecodedCommand : Prop :=
  ∀ (s : State) (i : Instr), decode s.cmdw = .ok i → step s = exec i s

/-- 30_encoding.md R91 (the spec's decision D16): `OP` 6 and 7 spell no operation and are refused. -/
def Obligations.UnusedOpcodesAreRefused : Prop :=
  ∀ s : State, s.cmdw &&& 7 = 6 ∨ s.cmdw &&& 7 = 7 → ∃ r, step s = .refused r

/-- 30_encoding.md R92 (the spec's decisions D6, D16): a nonzero reserved bit, a used divisor that is not well formed,
and `ILEN > LEN_MAX` are refused, so no error kind is reported. That `LEN_MAX` is 1024 and `DLEN_MAX` is 64 is the
model's choice of the OPEN defaults of 00_scope.md R8 (log 2, DESIGN CHOICE). -/
def Obligations.IllegalCommandsAreRefused : Prop :=
  ∀ s : State,
    (s.cmdw &&& 0xFF0000F0 ≠ 0 → ∃ r, step s = .refused r) ∧
    (∀ i, decode s.cmdw = .ok i → (¬ ∃ d, PresentsDivisor i s d) → ∃ r, step s = .refused r) ∧
    (s.ilen.toNat > 1024 → ∃ r, step s = .refused r)

/-- The model's form of 93_implementation_defined.md U6 for a command (log 3, DEDUCED): a command whose input includes
an `IBUF` entry nothing has written stops by this name, once its divisor is accepted and its length fits. -/
def Obligations.UnwrittenInputIsRefused : Prop :=
  ∀ (i : Instr) (s : State), (∃ d, PresentsDivisor i s d) → s.ilen.toNat ≤ 1024 → ¬ InputWritten s →
    exec i s = .refused .inputNotWritten

/-- Exactly the commands the spec gives a meaning are answered with a next state: `CMDW` decodes, a used divisor is
well formed, the input fits (`LEN_MAX` = 1024, log 2) and has been written (the last by log 3). No other command is stopped, and none is let
through. -/
def Obligations.StepAnswersExactlyThePresentableCommands : Prop :=
  ∀ s : State, (∃ t, step s = .next t) ↔ ∃ i, decode s.cmdw = .ok i ∧ Presentable i s

/-- 60_exceptions.md R207 and R221, "No condition in this core is fatal to the process": no command ends in a fault.
Every command is answered with a next state or with one of the five refusals of a command (their names are the
model's, log 6). -/
def Obligations.NoCommandFaults : Prop :=
  ∀ s : State, (∃ t, step s = .next t) ∨
    ∃ r ∈ [Refusal.reservedBits, .reservedOp, .illFormedDivisor, .inputTooLong, .inputNotWritten], step s = .refused r

/-! ## The front end and rejection -/

/-- 60_exceptions.md R202: any of the six operations with `ILEN = 0` is rejected with code 2; only the code is recorded
(the rest of the next state is R210's; that no output entry keeps a value is R64 with log 4). That the kind does not
depend on `N` is the spec's decision D11 (R212, log 9). -/
def Obligations.EmptyInputIsRejected : Prop :=
  ∀ (i : Instr) (s : State), (∃ d, PresentsDivisor i s d) → s.ilen = 0 →
    exec i s = .next { s with status := 2, olen := 0, obuf := [], cwlen := 0, cwbuf := [] }

/-- 60_exceptions.md R201: any of the six operations with a symbol whose `NB` is 1 is rejected with code 1, wherever the
symbol stands and however many there are (the rest of the next state is R210's; that no output entry keeps a value is
R64 with log 4). That the kind does not depend on `N` is the spec's decision D11 (R212, log 9). -/
def Obligations.NonBinarySymbolIsRejected : Prop :=
  ∀ (i : Instr) (s : State) (ys : List Symbol), (∃ d, PresentsDivisor i s d) → PresentsSymbols s ys →
    (∃ y ∈ ys, y.getLsbD 1 = true) →
    exec i s = .next { s with status := 1, olen := 0, obuf := [], cwlen := 0, cwbuf := [] }

/-- 60_exceptions.md R203: `N = 0` is rejected with code 3 by the four operations that use `N`; the two CRC operations
ignore `N` and never raise it. The cleared lengths and the unchanged fields of the next state are R210's; that no output
entry keeps a value is R64 with log 4 (DEDUCED). -/
def Obligations.ZeroThresholdIsRejected : Prop :=
  ∀ (f : Fields) (s : State),
    (∀ i ∈ [Instr.stuff f, .unstuff f, .encodeFrame f, .decodeFrame f], ∀ b, (∃ d, PresentsDivisor i s d) →
      PresentsBits s b → f.n = 0 →
      exec i s = .next { s with status := 3, olen := 0, obuf := [], cwlen := 0, cwbuf := [] }) ∧
    (∀ t, exec (.generateCrc f) s = .next t ∨ exec (.verifyCrc f) s = .next t → t.err ≠ 3)

/-- The front end's verdict (42_pipeline.md R171, R172) for every command: which error code, if any. The order of the
checks is the spec's decision D11 (log 9): input first, then threshold. -/
def Obligations.FrontEndDecidesTheErrorCode : Prop :=
  ∀ (i : Instr) (s : State) (ys : List Symbol), (∃ d, PresentsDivisor i s d) → PresentsSymbols s ys →
    ∃ t, exec i s = .next t ∧
      t.err =
        if ys = [] then 2
        else if ∃ y ∈ ys, y.getLsbD 1 = true then 1
        else match i with
          | .generateCrc _ => 0
          | .verifyCrc _ => 0
          | .stuff f => if f.n = 0 then 3 else 0
          | .unstuff f => if f.n = 0 then 3 else 0
          | .encodeFrame f => if f.n = 0 then 3 else 0
          | .decodeFrame f => if f.n = 0 then 3 else 0

/-- 60_exceptions.md R210 (the spec's decision D13): a rejection writes the code to `STATUS`, clears `OLEN` and `CWLEN`,
and changes nothing else. That no entry of `OBUF` or `CWBUF` keeps a value is 20_memory.md R64 (an entry at or above
the length has none) in the model's form of log 4 (DEDUCED). -/
def Obligations.RejectionChangesOnlyTheResponse : Prop :=
  ∀ (i : Instr) (s t : State), exec i s = .next t → t.err ≠ 0 →
    t = { s with status := 0#30 ++ t.err, olen := 0, obuf := [], cwlen := 0, cwbuf := [] }

/-! ## What each command does

Each is a whole next state: every field not named is as before. The values are those of the pseudocode's loops.
That `OBUF` and `CWBUF` hold no entry beyond the new lengths is 20_memory.md R64 with log 4 (DEDUCED). Operands are
presented within the capacities of log 2. -/

/-- `generate_crc` (40_crc.md R113): `W <- Div2(M ++ zeros(L-1), D)`, `OBUF <- last(W, L-1)`; no verdict, no codeword.
`N` is ignored. -/
def Obligations.GenerateCrcWritesTheRemainder : Prop :=
  ∀ (f : Fields) (s : State) (d m : Bits), SelectsDivisor f s d → PresentsBits s m →
    exec (.generateCrc f) s = .next
      { s with
        status := 0
        olen := BitVec.ofNat 16 (d.length - 1)
        obuf := Memory.ofSeq (lastBits (divLoop (m ++ zeros (d.length - 1)) d).w (d.length - 1))
        cwlen := 0
        cwbuf := [] }

/-- `verify_crc` (40_crc.md R120): `W <- Div2(C, D)`; `VALID` says whether its last `min(len(W), L-1)` symbols are all
zero; no output. The `min`, for a `C` shorter than `L-1`, is the spec's decision D18 (log 9). -/
def Obligations.VerifyCrcWritesTheVerdict : Prop :=
  ∀ (f : Fields) (s : State) (d c : Bits), SelectsDivisor f s d → PresentsBits s c →
    exec (.verifyCrc f) s = .next
      { s with
        status := if allZero (lastBits (divLoop c d).w (min c.length (d.length - 1))) = true then 4 else 0
        olen := 0
        obuf := []
        cwlen := 0
        cwbuf := [] }

/-- `stuff` (41_stuffing.md R141), for `N >= 1`: `OBUF` is what the loop over the input leaves in `OUT`; the divisor
fields are ignored. -/
def Obligations.StuffWritesTheStuffedSequence : Prop :=
  ∀ (f : Fields) (s : State) (b : Bits), PresentsBits s b → f.n ≠ 0 →
    exec (.stuff f) s = .next
      { s with
        status := 0
        olen := BitVec.ofNat 16 (stuffLoop b f.n.toNat).out.length
        obuf := Memory.ofSeq (stuffLoop b f.n.toNat).out
        cwlen := 0
        cwbuf := [] }

/-- `unstuff` (41_stuffing.md R150), for `N >= 1`: `OBUF` is what the loop over the input leaves in `OUT`; the divisor
fields are ignored. The equality test on inputs no stuffer produced is the spec's decision D17 (log 9). -/
def Obligations.UnstuffWritesTheUnstuffedSequence : Prop :=
  ∀ (f : Fields) (s : State) (b : Bits), PresentsBits s b → f.n ≠ 0 →
    exec (.unstuff f) s = .next
      { s with
        status := 0
        olen := BitVec.ofNat 16 (unstuffLoop b f.n.toNat).out.length
        obuf := Memory.ofSeq (unstuffLoop b f.n.toNat).out
        cwlen := 0
        cwbuf := [] }

/-- `encode_frame` (42_pipeline.md R175), for `N >= 1`: `CWBUF` is the message followed by its remainder, `OBUF` that
codeword stuffed as one stream; no verdict. -/
def Obligations.EncodeFrameWritesFrameAndCodeword : Prop :=
  ∀ (f : Fields) (s : State) (d m : Bits), SelectsDivisor f s d → PresentsBits s m → f.n ≠ 0 →
    let cw := m ++ lastBits (divLoop (m ++ zeros (d.length - 1)) d).w (d.length - 1)
    exec (.encodeFrame f) s = .next
      { s with
        status := 0
        olen := BitVec.ofNat 16 (stuffLoop cw f.n.toNat).out.length
        obuf := Memory.ofSeq (stuffLoop cw f.n.toNat).out
        cwlen := BitVec.ofNat 16 (m.length + d.length - 1)
        cwbuf := Memory.ofSeq cw }

/-- `decode_frame` (42_pipeline.md R180), for `N >= 1`: `CWBUF` is the frame unstuffed, `OBUF` all of it but the last
`L-1` symbols whatever the verdict, `VALID` the verdict over the whole of it. For a codeword' of `L-1` symbols or fewer
this is the spec's decisions D18 and D19 (log 9). -/
def Obligations.DecodeFrameWritesMessageVerdictAndCodeword : Prop :=
  ∀ (f : Fields) (s : State) (d b : Bits), SelectsDivisor f s d → PresentsBits s b → f.n ≠ 0 →
    let cw := (unstuffLoop b f.n.toNat).out
    exec (.decodeFrame f) s = .next
      { s with
        status := if allZero (lastBits (divLoop cw d).w (min cw.length (d.length - 1))) = true then 4 else 0
        olen := BitVec.ofNat 16 (cw.length - (d.length - 1))
        obuf := Memory.ofSeq (cw.take (cw.length - (d.length - 1)))
        cwlen := BitVec.ofNat 16 cw.length
        cwbuf := Memory.ofSeq cw }

/-- 42_pipeline.md R182: the split point is `len(D) - 1` symbols from the end of codeword', for whatever divisor the
command uses; with the default divisor that is 3. For a codeword' of fewer than `L-1` symbols the differences stop at 0,
so message' is empty: that is not R182 but R183, the spec's decision D19 (log 9). -/
def Obligations.SplitPointFollowsTheDivisor : Prop :=
  ∀ (f : Fields) (s : State) (d b : Bits), SelectsDivisor f s d → PresentsBits s b → f.n ≠ 0 →
    ∃ t, exec (.decodeFrame f) s = .next t ∧
      t.olen.toNat = t.cwlen.toNat - (d.length - 1) ∧
      (∀ k < t.olen.toNat, t.obuf.read k = t.cwbuf.read k) ∧
      (f.dsel = false → t.olen.toNat = t.cwlen.toNat - 3)

/-- 60_exceptions.md R204: a CRC mismatch is no error code: `ERR` is 0, `VALID` always carries the verdict, and
`decode_frame` reports message' and codeword' all the same. On sequences shorter than the divisor the verdict is the
spec's decision D18 and the empty message' D19 (log 9); entries beyond the lengths: log 4. -/
def Obligations.CrcMismatchIsReportedAsData : Prop :=
  ∀ (f : Fields) (s : State) (d b : Bits), SelectsDivisor f s d → PresentsBits s b →
    (verifyCrc b d = false → ∃ t, exec (.verifyCrc f) s = .next t ∧ t.err = 0 ∧ t.valid = false) ∧
    (f.n ≠ 0 → verifyCrc (unstuff b f.n.toNat) d = false →
      ∃ t, exec (.decodeFrame f) s = .next t ∧ t.err = 0 ∧ t.valid = false ∧
        t.obuf = Memory.ofSeq (messagePart (unstuff b f.n.toNat) d) ∧
        t.cwbuf = Memory.ofSeq (unstuff b f.n.toNat))

/-- 42_pipeline.md R183 (the spec's decision D19, log 9): when codeword' has `L-1` symbols or fewer, message' is empty,
`VALID` is 1 exactly when codeword' is all zeros, and no error is reported. -/
def Obligations.ShortCodewordGivesAnEmptyMessage : Prop :=
  ∀ (f : Fields) (s : State) (d b : Bits), SelectsDivisor f s d → PresentsBits s b → f.n ≠ 0 →
    (unstuff b f.n.toNat).length ≤ d.length - 1 →
    ∃ t, exec (.decodeFrame f) s = .next t ∧ t.err = 0 ∧ t.olen = 0 ∧ t.obuf = [] ∧
      t.cwbuf = Memory.ofSeq (unstuff b f.n.toNat) ∧
      (t.valid = true ↔ ∀ x ∈ unstuff b f.n.toNat, x = false)

/-! ## Rules of the whole machine -/

/-- 10_state.md R31 (the spec's decision D22): the codec never writes the command state; the whole response is a function
of the command state at issue and of nothing else; and it is held until the next command completes, whatever else the
host does. (A reset, which acts between commands, clears it: R240.) -/
def Obligations.ResponseIsAFunctionOfTheCommand : Prop :=
  (∀ s t : State, step s = .next t → CommandKept s t) ∧
  (∀ s t : State, SameCommand s t → SameOutcome (step s) (step t)) ∧
  (∀ (a : HostAction) (s t : State), a ≠ .issue → a ≠ .reset → hostAct a s = .next t → SameResponse s t)

/-- 30_encoding.md R89 (the spec's decision D15): "A field not used is ignored: it may hold any value and has no effect."
`N` for the CRC operations; `DSEL`, `DLEN`, `DIV` for `stuff` and `unstuff`. -/
def Obligations.UnusedFieldsHaveNoEffect : Prop :=
  ∀ (f g : Fields) (s : State) (v : BitVec 64),
    (f.dsel = g.dsel → f.dlen = g.dlen →
      exec (.generateCrc f) s = exec (.generateCrc g) s ∧ exec (.verifyCrc f) s = exec (.verifyCrc g) s) ∧
    (f.n = g.n →
      SameOutcome (exec (.stuff f) s) (exec (.stuff g) { s with div := v }) ∧
      SameOutcome (exec (.unstuff f) s) (exec (.unstuff g) { s with div := v }))

/-- 30_encoding.md R83 (the spec's decision D4): `DSEL = 0` is the default divisor `1101` and `DLEN` and `DIV` are
ignored; R97 (a): giving `1101` explicitly is the same command. -/
def Obligations.DefaultDivisorIsTheExplicit1101 : Prop :=
  ∀ (n len : BitVec 8) (s : State) (v : BitVec 64),
    let f : Fields := { dsel := false, n := n, dlen := len }
    let g : Fields := { dsel := true, n := n, dlen := 4 }
    SameOutcome (exec (.generateCrc f) { s with div := v }) (exec (.generateCrc g) { s with div := 0xD }) ∧
    SameOutcome (exec (.verifyCrc f) { s with div := v }) (exec (.verifyCrc g) { s with div := 0xD }) ∧
    SameOutcome (exec (.encodeFrame f) { s with div := v }) (exec (.encodeFrame g) { s with div := 0xD }) ∧
    SameOutcome (exec (.decodeFrame f) { s with div := v }) (exec (.decodeFrame g) { s with div := 0xD })

/-- 30_encoding.md R95 (the spec's decisions D12 to D14): the layout of `STATUS`, its five possible values after a
command, and that an error comes with no verdict and no output. -/
def Obligations.StatusHasOneOfFiveValues : Prop :=
  ∀ s t : State, step s = .next t →
    t.status = 0#29 ++ BitVec.ofBool t.valid ++ t.err ∧
    (t.status = 0 ∨ t.status = 4 ∨ t.status = 1 ∨ t.status = 2 ∨ t.status = 3) ∧
    (t.err ≠ 0 → t.valid = false ∧ t.olen = 0 ∧ t.cwlen = 0)

/-- 10_state.md R27: only an accepted `verify_crc` or `decode_frame` sets `VALID`. -/
def Obligations.OnlyAVerdictSetsValid : Prop :=
  ∀ (i : Instr) (s t : State), exec i s = .next t → t.valid = true →
    t.err = 0 ∧ ((∃ f, i = .verifyCrc f) ∨ ∃ f, i = .decodeFrame f)

/-- 20_memory.md R66 (derived there): no command overflows a buffer, so each output buffer holds exactly as many entries
as its length register says; with the bounds (a) to (e) on the units. The capacities are those of log 2; entries beyond
the lengths: log 4. -/
def Obligations.NoBufferOverflows : Prop :=
  (∀ s t : State, step s = .next t → t.OutputSound) ∧
  (∀ (s : Bits) (n : Nat), (stuff s n).length ≤ 2 * s.length ∧ (unstuff s n).length ≤ s.length) ∧
  (∀ m d : Bits, DivisorWellFormed d →
    (generateCrc m d).length = d.length - 1 ∧ (codeword m d).length = m.length + d.length - 1)

/-! ## Reset, the host, the invariant -/

/-- 10_state.md R45 (the spec's decision D23): every register 0, no buffer entry with a value; and the host's reset puts
the codec there from any state (70_reset_and_hazards.md R240). -/
def Obligations.ResetClearsEveryRegister : Prop :=
  (∀ r : Reg, hostReadRegister r State.reset = 0) ∧ State.reset.err = 0 ∧ State.reset.valid = false ∧
  (∀ (b : BufferName) (k : Nat), hostReadBuffer b k State.reset = none) ∧
  (∀ k : Nat, State.reset.ibuf.read k = none ∧ State.reset.obuf.read k = none ∧ State.reset.cwbuf.read k = none) ∧
  (∀ s : State, hostAct .reset s = .next State.reset)

/-- 10_state.md R46, first sentence (derived there): the command the reset state spells is `generate_crc` on an empty
input, and issuing it is rejected with `EmptyInput`. -/
def Obligations.CommandOfTheResetStateIsRejected : Prop :=
  decode State.reset.cmdw = .ok (.generateCrc { dsel := false, n := 0, dlen := 0 }) ∧
  step State.reset = .next { State.reset with status := 2 }

/-- 20_memory.md R64 (the spec's decision D27): an output entry has a value for the host exactly below the length
register; an input entry only below `ILEN`; a read without a value is refused, and a read never changes the state. -/
def Obligations.BufferReadsHaveAValueOnlyBelowTheLength : Prop :=
  ∀ (s : State) (k : Nat), s.Inv →
    ((hostReadBuffer .obuf k s).isSome = true ↔ k < s.olen.toNat) ∧
    ((hostReadBuffer .cwbuf k s).isSome = true ↔ k < s.cwlen.toNat) ∧
    ((hostReadBuffer .ibuf k s).isSome = true ↔ k < s.ilen.toNat ∧ (s.ibuf.read k).isSome = true) ∧
    (∀ b, hostAct (.readBuffer b k) s =
      if (hostReadBuffer b k s).isSome = true then .next s else .refused .entryWithoutValue)

/-- 10_state.md R30 (access rights, the spec's decisions D3, D23) and 20_memory.md R65: a host write to a read-only
register or buffer and a host read of a register change nothing; a write of an input symbol is what a later read of that
entry gives, and no other entry of `IBUF` and no register changes. A write at an index `IBUF` does not have is refused,
by a name of the model's (log 7; `LEN_MAX` = 1024 by log 2). -/
def Obligations.HostWritesOnlyTheCommandState : Prop :=
  ∀ s : State,
    (∀ v, hostAct (.writeStatus v) s = .next s) ∧ (∀ v, hostAct (.writeOlen v) s = .next s) ∧
    (∀ v, hostAct (.writeCwlen v) s = .next s) ∧ (∀ k b, hostAct (.writeObuf k b) s = .next s) ∧
    (∀ k b, hostAct (.writeCwbuf k b) s = .next s) ∧ (∀ r, hostAct (.readRegister r) s = .next s) ∧
    (∀ k y, k < 1024 → ∃ t, hostAct (.writeIbuf k y) s = .next t ∧ t.ibuf.read k = some y ∧
      (∀ j, j ≠ k → t.ibuf.read j = s.ibuf.read j) ∧ t = { s with ibuf := t.ibuf }) ∧
    (∀ k y, 1024 ≤ k → hostAct (.writeIbuf k y) s = .refused .noSuchEntry)

/-- The invariant holds at reset. -/
def Obligations.ResetSatisfiesInv : Prop := State.reset.Inv

/-- Every command keeps the invariant: buffers in canonical form, exactly as long as their length registers say and
within their capacities, `STATUS` one of its five values, no output with an error. -/
def Obligations.StepKeepsInv : Prop := ∀ s t : State, s.Inv → step s = .next t → t.Inv

/-- Every state the host can reach from reset, by any actions in any order, satisfies the invariant. -/
def Obligations.ReachableStatesSatisfyInv : Prop := ∀ s : State, Reachable s → s.Inv

/-- The host's writes of 70_reset_and_hazards.md R242 present the command, from any state, and leave the last response
as it is (`LEN_MAX` = 1024 by log 2). -/
def Obligations.PreparingPresentsTheCommand : Prop :=
  ∀ (s : State) (c : Command), c.input.length ≤ 1024 →
    ∃ t, runHost c.prepare s = .next t ∧ decode t.cmdw = .ok c.instr ∧ t.div = c.div ∧
      PresentsSymbols t c.input ∧ SameResponse s t

/-- 10_state.md R46, second sentence (derived there): a prepared and issued command gets the response it gets from reset,
whatever the state before; so nothing of earlier commands shows, and `ERR` is not sticky (60_exceptions.md R220).
`LEN_MAX` = 1024 by log 2. -/
def Obligations.PreparedCommandForgetsTheHistory : Prop :=
  ∀ (s : State) (c : Command), c.input.length ≤ 1024 →
    SameOutcome (runHost c.actions s) (runHost c.actions State.reset)

/-! ## The CRC engine -/

/-- 40_crc.md R112 (derived there; (d) from general knowledge G4): `Div2` keeps the length, clears every position it
visits, does nothing to a sequence shorter than `D`, and leaves the remainder: `W = Q*D + Div2(W, D)` for exactly one
quotient `Q`. -/
def Obligations.Div2LeavesTheRemainder : Prop :=
  ∀ w d : Bits, DivisorWellFormed d →
    (div2 w d).length = w.length ∧
    (d.length ≤ w.length → ∀ k < w.length - d.length + 1, (div2 w d)[k]? = some false) ∧
    (w.length < d.length → div2 w d = w) ∧
    (d.length ≤ w.length →
      ∃! q : Bits, q.length + d.length = w.length + 1 ∧ xorBits (polyMul q d) (div2 w d) = w)

/-- The loop of 40_crc.md R111, iteration by iteration (70_reset_and_hazards.md R258), computes `div2`. -/
def Obligations.DivisionIterationsComputeDiv2 : Prop := ∀ w d : Bits, (divLoop w d).w = div2 w d

/-- 40_crc.md R121 and R122 (the spec's decision D18 and derived): the verdict is whether `Div2(C, D)` is all zeros; on a
`C` shorter than the divisor, whether `C` is. -/
def Obligations.VerdictIsAnAllZeroDivision : Prop :=
  ∀ c d : Bits, DivisorWellFormed d →
    verifyCrc c d = allZero (div2 c d) ∧ (c.length < d.length → (verifyCrc c d = true ↔ c = zeros c.length))

/-- 40_crc.md R123: "for all `M`, `verify_crc(M + generate_crc(M, D), D) == true`". -/
def Obligations.GeneratedCodewordVerifies : Prop :=
  ∀ m d : Bits, m ≠ [] → DivisorWellFormed d → verifyCrc (m ++ generateCrc m d) d = true

/-- The remainder is linear (40_crc.md R124, from general knowledge G1). -/
def Obligations.DivisionIsLinear : Prop :=
  ∀ a b d : Bits, DivisorWellFormed d → a.length = b.length →
    div2 (xorBits a b) d = xorBits (div2 a d) (div2 b d)

/-- 40_crc.md R124 (its step from general knowledge G1): an error pattern on a valid codeword goes undetected exactly
when it is a multiple of the divisor polynomial. -/
def Obligations.UndetectedErrorsAreTheMultiples : Prop :=
  ∀ c e d : Bits, DivisorWellFormed d → c.length = e.length → verifyCrc c d = true →
    (verifyCrc (xorBits c e) d = true ↔ IsMultiple e d)

/-- 40_crc.md R125 (from general knowledge G2): with a divisor whose low-order symbol is 1, every single flipped symbol of
a valid codeword is detected. -/
def Obligations.SingleSymbolErrorsAreDetected : Prop :=
  ∀ (c d : Bits) (k : Nat), DivisorWellFormed d → d.getLast? = some true → verifyCrc c d = true → k < c.length →
    verifyCrc (xorBits c (singleError c.length k)) d = false

/-- 40_crc.md R127 (from general knowledge G3): the serial form ends with the remainder in its register; for a sequence
shorter than the register, with the sequence behind leading zeros. -/
def Obligations.SerialFormComputesTheRemainder : Prop :=
  ∀ w d : Bits, DivisorWellFormed d →
    (d.length - 1 ≤ w.length → serialRemainder w d = lastBits (div2 w d) (d.length - 1)) ∧
    (w.length < d.length - 1 → serialRemainder w d = zeros (d.length - 1 - w.length) ++ w)

/-- 40_crc.md R114 (derived there), (b), (c), (d), (f), (g): zeros, leading zeros, the length, the two divisors of two
symbols, and the message equal to the divisor. -/
def Obligations.RemainderCornerCases : Prop :=
  ∀ m d : Bits, DivisorWellFormed d →
    (∀ k, generateCrc (zeros k) d = zeros (d.length - 1)) ∧
    generateCrc (false :: m) d = generateCrc m d ∧
    (generateCrc m d).length = d.length - 1 ∧
    generateCrc m [true, true] = [m.foldl Bool.xor false] ∧
    generateCrc m [true, false] = [false] ∧
    generateCrc d d = zeros (d.length - 1)

/-! ## The stuffer and the unstuffer -/

/-- The loop of 41_stuffing.md R141, iteration by iteration (70_reset_and_hazards.md R258), computes `stuff`. -/
def Obligations.StufferIterationsComputeStuff : Prop :=
  ∀ (s : Bits) (n : Nat), (stuffLoop s n).out = stuff s n ∧ (stuffLoop s n).i = s.length

/-- The loop of 41_stuffing.md R150, iteration by iteration (70_reset_and_hazards.md R258), computes `unstuff` within
`len(S)` iterations (R257). -/
def Obligations.UnstufferIterationsComputeUnstuff : Prop :=
  ∀ (s : Bits) (n : Nat), (unstuffLoop s n).out = unstuff s n ∧ (unstuffLoop s n).i = s.length

/-- 41_stuffing.md R143 (a) (derived there): one marker for every `N` ones of each maximal run; so the output is at least
as long as the input and at most twice as long, which all ones with `N = 1` attain. -/
def Obligations.StuffAddsOneMarkerPerFullRun : Prop :=
  (∀ (s : Bits) (n : Nat), 1 ≤ n →
    (stuff s n).length = s.length + ((oneRuns s).map (· / n)).sum ∧
    s.length ≤ (stuff s n).length ∧ (stuff s n).length ≤ 2 * s.length) ∧
  (∀ k : Nat, (stuff (ones k) 1).length = 2 * k)

/-- 41_stuffing.md R143 (b) (derived there): the stuffed sequence has no run of `N+1` ones. -/
def Obligations.StuffedSequenceHasNoLongRun : Prop :=
  ∀ (s : Bits) (n : Nat), 1 ≤ n → ¬ ones (n + 1) <:+: stuff s n

/-- 41_stuffing.md R152: "`Unstuff(Stuff(S, N), N) == S` for all valid `S` and `N ≥ 1`". -/
def Obligations.UnstuffInvertsStuff : Prop :=
  ∀ (s : Bits) (n : Nat), s ≠ [] → 1 ≤ n → unstuff (stuff s n) n = s

/-- 41_stuffing.md R151 (the spec's decision D17, log 9) with R150: what the unstuffer does with a run of `k` ones. A run
of exactly `N` loses the 0 that follows it; a shorter or a longer one keeps it; a run at the end is returned as it is. -/
def Obligations.UnstuffRemovesAMarkerOnlyAfterExactlyNOnes : Prop :=
  ∀ (k n : Nat) (s : Bits), 1 ≤ n →
    (k ≠ n → unstuff (ones k ++ false :: s) n = ones k ++ false :: unstuff s n) ∧
    unstuff (ones n ++ false :: s) n = ones n ++ unstuff s n ∧
    unstuff (ones k) n = ones k

/-- 41_stuffing.md R154 (derived there): the streaming form of the unstuffer gives the same output on every input. -/
def Obligations.StreamingUnstufferAgrees : Prop := ∀ (s : Bits) (n : Nat), streamUnstuff s n = unstuff s n

/-! ## The pipeline and its primitives -/

/-- 42_pipeline.md R176 (derived there): the frame is the output of the command `stuff` on the message followed by the
output of the command `generate_crc`, with the same divisor and threshold, and `CWBUF` is that concatenation. -/
def Obligations.EncodeFrameAgreesWithThePrimitives : Prop :=
  ∀ (f : Fields) (s : State) (d m : Bits), SelectsDivisor f s d → PresentsBits s m → f.n ≠ 0 →
    ∃ (t t₁ : State) (r : Bits), exec (.encodeFrame f) s = .next t ∧ exec (.generateCrc f) s = .next t₁ ∧
      t₁.obuf = Memory.ofSeq r ∧ t.cwbuf = Memory.ofSeq (m ++ r) ∧ t.cwlen.toNat = (m ++ r).length ∧
      ∀ (g : Fields) (s₂ : State), g.n = f.n → PresentsBits s₂ (m ++ r) →
        ∃ t₂, exec (.stuff g) s₂ = .next t₂ ∧ t.obuf = t₂.obuf ∧ t.olen = t₂.olen

/-- 42_pipeline.md R181 (derived there): `CWBUF` is the output of the command `unstuff` on the frame, `VALID` the verdict
of the command `verify_crc` on that output, message' that output less its last `L-1` symbols. For an output shorter than
`L-1` symbols message' is empty, the spec's decision D19 (R183), and the verdict is D18's (log 9). -/
def Obligations.DecodeFrameAgreesWithThePrimitives : Prop :=
  ∀ (f : Fields) (s : State) (d b : Bits), SelectsDivisor f s d → PresentsBits s b → f.n ≠ 0 →
    ∃ (t t₁ : State) (c : Bits), exec (.decodeFrame f) s = .next t ∧ exec (.unstuff f) s = .next t₁ ∧
      t₁.obuf = Memory.ofSeq c ∧ t.cwbuf = t₁.obuf ∧ t.cwlen = t₁.olen ∧
      t.obuf = Memory.ofSeq (c.take (c.length - (d.length - 1))) ∧
      ∀ (g : Fields) (s₂ : State), SelectsDivisor g s₂ d → PresentsBits s₂ c →
        ∃ t₂, exec (.verifyCrc g) s₂ = .next t₂ ∧ t.valid = t₂.valid

/-- 42_pipeline.md R184 (derived there): decoding an encoded frame with the same threshold and divisor gives the message,
`VALID = 1` and the codeword: for the units on sequences of any length, and for the commands. -/
def Obligations.PipelineRoundTrip : Prop :=
  (∀ (m d : Bits) (n : Nat), m ≠ [] → 1 ≤ n → DivisorWellFormed d →
    let cw := unstuff (encodeFrame m n d) n
    messagePart cw d = m ∧ verifyCrc cw d = true ∧ cw = codeword m d) ∧
  (∀ (f : Fields) (s : State) (d m : Bits), SelectsDivisor f s d → PresentsBits s m → f.n ≠ 0 →
    ∃ (t : State) (frame : Bits), exec (.encodeFrame f) s = .next t ∧ t.obuf = Memory.ofSeq frame ∧
      ∀ (g : Fields) (s₂ : State), g.n = f.n → SelectsDivisor g s₂ d → PresentsBits s₂ frame →
        ∃ t₂, exec (.decodeFrame g) s₂ = .next t₂ ∧ t₂.obuf = Memory.ofSeq m ∧
          t₂.olen.toNat = m.length ∧ t₂.status = 4 ∧ t₂.cwbuf = t.cwbuf ∧ t₂.cwlen = t.cwlen)

/-! ## The finer step -/

/-- 70_reset_and_hazards.md R258 (the spec's decision D32; not architectural) with R257 (derived there) and 42_pipeline.md
R170: a command stepped through its stages and its units' loops performs the command, and within `2 * ILEN + 68` inner
steps (with `DLEN_MAX` = 64, log 2); until it has ended the host sees the state it was issued in, and once it has ended
the state the command leaves. -/
def Obligations.InnerStepsPerformTheCommand : Prop :=
  ∀ s : State,
    (∀ t, step s = .next t →
      innerRun (2 * s.ilen.toNat + 68) (issueCommand s) = .next { state := t, stage := .ended }) ∧
    (∀ r, step s = .refused r → innerRun (2 * s.ilen.toNat + 68) (issueCommand s) = .refused r) ∧
    (∀ (k : Nat) (p : Progress), innerRun k (issueCommand s) = .next p →
      (p.stage ≠ .ended → p.state = s) ∧ (p.stage = .ended → step s = .next p.state))
end

