-- ==== Sys2Proof/Laws/State.lean ====
section
/-! SUPPORT. One lemma per field per update of the state, and the fields of a status word. -/

namespace Sys2Proof.Machine

section
variable (r : Response) (k : ErrorKind) (s : State)

@[simp] theorem complete_cmdw : (complete r s).cmdw = s.cmdw := rfl
@[simp] theorem complete_div : (complete r s).div = s.div := rfl
@[simp] theorem complete_ilen : (complete r s).ilen = s.ilen := rfl
@[simp] theorem complete_ibuf : (complete r s).ibuf = s.ibuf := rfl
@[simp] theorem complete_status : (complete r s).status = statusWord (errCode r.err) r.valid := rfl
@[simp] theorem complete_olen : (complete r s).olen = lengthWord r.out := rfl
@[simp] theorem complete_obuf : (complete r s).obuf = Memory.ofSeq r.out := rfl
@[simp] theorem complete_cwlen : (complete r s).cwlen = lengthWord r.cw := rfl
@[simp] theorem complete_cwbuf : (complete r s).cwbuf = Memory.ofSeq r.cw := rfl

@[simp] theorem reject_cmdw : (reject k s).cmdw = s.cmdw := rfl
@[simp] theorem reject_div : (reject k s).div = s.div := rfl
@[simp] theorem reject_ilen : (reject k s).ilen = s.ilen := rfl
@[simp] theorem reject_ibuf : (reject k s).ibuf = s.ibuf := rfl
@[simp] theorem reject_status : (reject k s).status = statusWord k.code false := rfl
@[simp] theorem reject_olen : (reject k s).olen = 0 := rfl
@[simp] theorem reject_obuf : (reject k s).obuf = [] := rfl
@[simp] theorem reject_cwlen : (reject k s).cwlen = 0 := rfl
@[simp] theorem reject_cwbuf : (reject k s).cwbuf = [] := rfl

variable (nbits w : Nat)

@[simp] theorem withFetchWord_cmdw : (s.withFetchWord nbits w).cmdw = tableWord nbits w := rfl
@[simp] theorem withFetchWord_div : (s.withFetchWord nbits w).div = s.div := rfl
@[simp] theorem withFetchWord_ilen : (s.withFetchWord nbits w).ilen = s.ilen := rfl
@[simp] theorem withFetchWord_ibuf : (s.withFetchWord nbits w).ibuf = s.ibuf := rfl
@[simp] theorem withFetchWord_status : (s.withFetchWord nbits w).status = s.status := rfl
@[simp] theorem withFetchWord_olen : (s.withFetchWord nbits w).olen = s.olen := rfl
@[simp] theorem withFetchWord_obuf : (s.withFetchWord nbits w).obuf = s.obuf := rfl
@[simp] theorem withFetchWord_cwlen : (s.withFetchWord nbits w).cwlen = s.cwlen := rfl
@[simp] theorem withFetchWord_cwbuf : (s.withFetchWord nbits w).cwbuf = s.cwbuf := rfl

end

/-- `STATUS[1:0]` of a status word is the code it was made from. -/
@[simp] theorem err_statusWord (e : BitVec 2) (v : Bool) : (statusWord e v).extractLsb' 0 2 = e := by
  revert e v; decide

/-- `STATUS[2]` of a status word is the verdict it was made from. -/
@[simp] theorem valid_statusWord (e : BitVec 2) (v : Bool) : (statusWord e v).getLsbD 2 = v := by
  revert e v; decide

@[simp] theorem complete_err (r : Response) (s : State) : (complete r s).err = errCode r.err :=
  err_statusWord _ _

@[simp] theorem complete_valid (r : Response) (s : State) : (complete r s).valid = r.valid :=
  valid_statusWord _ _

@[simp] theorem reject_err (k : ErrorKind) (s : State) : (reject k s).err = k.code :=
  err_statusWord _ _

@[simp] theorem reject_valid (k : ErrorKind) (s : State) : (reject k s).valid = false :=
  valid_statusWord _ _

/-- No kind has code 0. -/
theorem code_ne_zero (k : ErrorKind) : k.code ≠ 0 := by cases k <;> decide

/-- The status word of a rejection is its code. -/
theorem statusWord_false (e : BitVec 2) : statusWord e false = 0#30 ++ e := by revert e; decide

/-- The status word of an accepted command is 4 or 0. -/
theorem statusWord_zero (v : Bool) : statusWord 0 v = if v then 4 else 0 := by revert v; decide

end Sys2Proof.Machine
end

