-- ==== Sys2Proof/Laws/Decode.lean ====
section
/-! SUPPORT. The fields of a command word (30_encoding.md R81) and what the decoder answers on it. -/

namespace Sys2Proof

/-- The command word, bit by bit (30_encoding.md R81). -/
theorem getLsbD_commandWord (op : BitVec 3) (f : Fields) (k : Nat) :
    (commandWord op f).getLsbD k =
      if k < 3 then op.getLsbD k
      else if k = 3 then f.dsel
      else if k < 8 then false
      else if k < 16 then f.n.getLsbD (k - 8)
      else if k < 24 then f.dlen.getLsbD (k - 16)
      else false := by
  simp only [commandWord, BitVec.getLsbD_append]
  by_cases h3 : k < 3
  · simp [h3]
  · by_cases h4 : k = 3
    · subst h4; cases f.dsel <;> simp
    · by_cases h8 : k < 8
      · simp [h3, h4, h8, show ¬ k - 3 < 1 by omega, show k - 3 - 1 < 4 by omega]
      · by_cases h16 : k < 16
        · simp [h3, h4, h8, h16, show ¬ k - 3 < 1 by omega, show ¬ k - 3 - 1 < 4 by omega, show k - 3 - 1 - 4 = k - 8 by omega, show k - 8 < 8 by omega]
        · by_cases h24 : k < 24
          · simp [h3, h4, h8, h16, h24, show ¬ k - 3 < 1 by omega, show ¬ k - 3 - 1 < 4 by omega, show ¬ k - 3 - 1 - 4 < 8 by omega, show k - 3 - 1 - 4 - 8 = k - 16 by omega, show k - 16 < 8 by omega]
          · simp [h3, h4, h8, h16, h24, show ¬ k - 3 < 1 by omega, show ¬ k - 3 - 1 < 4 by omega, show ¬ k - 3 - 1 - 4 < 8 by omega,show ¬ k - 3 - 1 - 4 - 8 < 8 by omega]

theorem opField_commandWord (op : BitVec 3) (f : Fields) : opField (commandWord op f) = op := by
  apply BitVec.eq_of_getLsbD_eq
  intro k hk
  simp [opField, getLsbD_commandWord, hk]

theorem fieldsOf_commandWord (op : BitVec 3) (f : Fields) : fieldsOf (commandWord op f) = f := by
  obtain ⟨dsel, n, dlen⟩ := f
  simp only [fieldsOf, Fields.mk.injEq]
  refine ⟨by rw [getLsbD_commandWord]; simp, ?_, ?_⟩
  · apply BitVec.eq_of_getLsbD_eq
    intro k hk
    simp [getLsbD_commandWord, show ¬ 8 + k < 3 by omega, show ¬ 8 + k = 3 by omega, show 8 + k < 16 by omega, hk]
  · apply BitVec.eq_of_getLsbD_eq
    intro k hk
    simp [getLsbD_commandWord, show ¬ 16 + k < 3 by omega, show ¬ 16 + k = 3 by omega, show ¬ 16 + k < 8 by omega, show 16 + k < 24 by omega, hk]

/-- The decoder's first test, as 30_encoding.md R90 writes it. -/
theorem reservedZero_iff (w : Word) : reservedZero w = true ↔ w &&& 0xFF0000F0#32 = 0#32 := by
  simp [reservedZero]

theorem reservedZero_commandWord (op : BitVec 3) (f : Fields) : reservedZero (commandWord op f) = true := by
  rw [reservedZero_iff]
  apply BitVec.eq_of_getLsbD_eq
  intro k hk
  rw [BitVec.getLsbD_and, getLsbD_commandWord]
  have : ∀ k < 32, (0xFF0000F0#32).getLsbD k = true → (4 ≤ k ∧ k < 8) ∨ 24 ≤ k := by decide
  by_cases hm : (0xFF0000F0#32).getLsbD k = true
  · rcases this k hk hm with h | h
    · simp [show ¬ k < 3 by omega, show ¬ k = 3 by omega, h.2]
    · simp [show ¬ k < 3 by omega, show ¬ k = 3 by omega, show ¬ k < 8 by omega, show ¬ k < 16 by omega, show ¬ k < 24 by omega]
  · simp [Bool.eq_false_iff.mpr hm]

/-- What the decoder answers on a word whose reserved bits are zero and whose `OP` is given. -/
theorem decode_of_op (w : Word) (h : reservedZero w = true) :
    decode w = match (opField w).toNat with
      | 0 => .ok (.generateCrc (fieldsOf w))
      | 1 => .ok (.verifyCrc (fieldsOf w))
      | 2 => .ok (.stuff (fieldsOf w))
      | 3 => .ok (.unstuff (fieldsOf w))
      | 4 => .ok (.encodeFrame (fieldsOf w))
      | 5 => .ok (.decodeFrame (fieldsOf w))
      | _ => .error .reservedOp := if_pos h

/-- A word with a reserved bit set is refused by name. -/
theorem decode_of_reserved (w : Word) (h : reservedZero w = false) : decode w = .error .reservedBits := by
  simp [decode, h]
end Sys2Proof
end

