-- ==== Sys2Proof/Laws/Memory.lean ====
section
/-! SUPPORT. Buffers: read after write, and that every operation keeps the canonical form. -/

namespace Sys2Proof.Machine.Memory

variable {α : Type}

@[simp] theorem read_nil (k : Nat) : Memory.read ([] : Memory α) k = none := rfl

theorem read_cons (j : Nat) (v : α) (m : Memory α) (k : Nat) :
    Memory.read ((j, v) :: m) k = if j = k then some v else Memory.read m k := rfl

/-- An entry just written reads as what was written. -/
@[simp] theorem read_write_same (m : Memory α) (k : Nat) (v : α) : (m.write k v).read k = some v := by
  induction m with
  | nil => simp [Memory.write, Memory.read]
  | cons e m ih =>
    obtain ⟨j, u⟩ := e
    simp only [Memory.write]
    split
    · simp [Memory.read]
    · split
      · simp [Memory.read]
      · rw [read_cons, if_neg (by omega), ih]

/-- A write leaves every other entry alone. -/
theorem read_write_ne (m : Memory α) {k l : Nat} (v : α) (h : l ≠ k) : (m.write k v).read l = m.read l := by
  induction m with
  | nil => simp [Memory.write, Memory.read, h.symm]
  | cons e m ih =>
    obtain ⟨j, u⟩ := e
    simp only [Memory.write]
    split
    · rw [read_cons, if_neg (fun h' => h h'.symm)]
    · split
      · subst_vars; simp [read_cons, h.symm]
      · rw [read_cons, read_cons, ih]

/-- A write within the capacity keeps the canonical form. -/
theorem risingFrom_write (cap : Nat) (m : Memory α) (lo k : Nat) (v : α) (hlo : lo ≤ k) (hk : k < cap)
    (h : m.risingFrom cap lo = true) : (m.write k v).risingFrom cap lo = true := by
  induction m generalizing lo with
  | nil => simp [Memory.write, Memory.risingFrom, hlo, hk]
  | cons e m ih =>
    obtain ⟨j, u⟩ := e
    simp only [Memory.risingFrom, Bool.and_eq_true, decide_eq_true_eq] at h
    simp only [Memory.write]
    split
    · simp [Memory.risingFrom, hlo, hk, h]; omega
    · split
      · subst_vars; simp [Memory.risingFrom, h]
      · simp only [Memory.risingFrom, Bool.and_eq_true, decide_eq_true_eq]
        exact ⟨h.1, ih (j + 1) (by omega) h.2⟩

/-- A host write to a buffer keeps it well formed. -/
theorem wf_write (cap : Nat) (m : Memory α) {k : Nat} (v : α) (hk : k < cap) (h : m.wf cap = true) :
    (m.write k v).wf cap = true := risingFrom_write cap m 0 k v (Nat.zero_le k) hk h

theorem risingFrom_ofSeqFrom (cap : Nat) (vs : List α) (lo : Nat) (h : lo + vs.length ≤ cap) :
    (Memory.ofSeqFrom lo vs).risingFrom cap lo = true := by
  induction vs generalizing lo with
  | nil => rfl
  | cons v vs ih =>
    simp only [List.length_cons] at h
    simp [Memory.ofSeqFrom, Memory.risingFrom, ih (lo + 1) (by omega)]
    omega

/-- A buffer bound to a sequence that fits is well formed. -/
theorem wf_ofSeq (cap : Nat) (vs : List α) (h : vs.length ≤ cap) : (Memory.ofSeq vs).wf cap = true :=
  risingFrom_ofSeqFrom cap vs 0 (by omega)

theorem read_ofSeqFrom (vs : List α) (lo k : Nat) :
    (Memory.ofSeqFrom lo vs).read k = if lo ≤ k then vs[k - lo]? else none := by
  induction vs generalizing lo with
  | nil => simp [Memory.ofSeqFrom]
  | cons v vs ih =>
    rw [Memory.ofSeqFrom, read_cons, ih]
    by_cases h : lo = k
    · subst h; simp
    · rw [if_neg h]
      by_cases h' : lo ≤ k
      · rw [if_pos (by omega), if_pos h', show k - lo = (k - (lo + 1)) + 1 by omega, List.getElem?_cons_succ]
      · rw [if_neg (by omega), if_neg h']

/-- Entry `k` of a buffer bound to a sequence is symbol `k` of it, and no other entry has a value. -/
@[simp] theorem read_ofSeq (vs : List α) (k : Nat) : (Memory.ofSeq vs).read k = vs[k]? := by
  simp [Memory.ofSeq, read_ofSeqFrom]

@[simp] theorem ofSeq_nil : Memory.ofSeq ([] : List α) = [] := rfl

theorem map_fst_ofSeqFrom (vs : List α) (lo : Nat) :
    (Memory.ofSeqFrom lo vs).map Prod.fst = List.range' lo vs.length := by
  induction vs generalizing lo with
  | nil => rfl
  | cons v vs ih => simp [Memory.ofSeqFrom, ih, List.range'_succ]

/-- A buffer bound to a sequence holds exactly the entries below its length. -/
theorem holds_ofSeq (b : Bits) : (Memory.ofSeq b).Holds b.length := by
  simp [Memory.Holds, Memory.ofSeq, map_fst_ofSeqFrom, List.range_eq_range']

/-- Binding is one-to-one. -/
theorem ofSeq_injective {vs us : List α} (h : Memory.ofSeq vs = Memory.ofSeq us) : vs = us := by
  refine List.ext_getElem? fun k => ?_
  have := congrArg (fun m => Memory.read m k) h
  simpa using this

theorem readSeqFrom_eq_some_iff (m : Memory α) (lo : Nat) (vs : List α) :
    ∀ count, m.readSeqFrom lo count = some vs ↔ vs.length = count ∧ ∀ k < count, m.read (lo + k) = vs[k]? := by
  intro count
  induction count generalizing lo vs with
  | zero =>
    cases vs <;> simp [Memory.readSeqFrom]
  | succ c ih =>
    cases vs with
    | nil =>
      simp only [Memory.readSeqFrom]
      cases m.read lo <;> cases m.readSeqFrom (lo + 1) c <;> simp
    | cons v vs =>
      have key : m.readSeqFrom lo (c + 1) = some (v :: vs) ↔
          m.read lo = some v ∧ m.readSeqFrom (lo + 1) c = some vs := by
        simp only [Memory.readSeqFrom]
        cases m.read lo <;> cases m.readSeqFrom (lo + 1) c <;> simp
      rw [key, ih]
      constructor
      · rintro ⟨h0, hl, hk⟩
        refine ⟨by simp [hl], fun k hkc => ?_⟩
        cases k with
        | zero => simpa using h0
        | succ k =>
          have := hk k (by omega)
          rw [show lo + 1 + k = lo + (k + 1) by omega] at this
          simpa using this
      · rintro ⟨hl, hk⟩
        refine ⟨by simpa using hk 0 (by omega), by simpa using hl, fun k hkc => ?_⟩
        have := hk (k + 1) (by omega)
        rw [show lo + 1 + k = lo + (k + 1) by omega]
        simpa using this

/-- The sequence held is `vs` exactly when it has `len` symbols and they are the entries below `len`. -/
theorem readSeq_eq_some_iff (m : Memory α) (len : Nat) (vs : List α) :
    m.readSeq len = some vs ↔ vs.length = len ∧ ∀ k < len, m.read k = vs[k]? := by
  simpa [Memory.readSeq] using readSeqFrom_eq_some_iff m 0 vs len

theorem readSeqFrom_isSome_iff (m : Memory α) (lo count : Nat) :
    (m.readSeqFrom lo count).isSome = true ↔ ∀ k < count, (m.read (lo + k)).isSome = true := by
  induction count generalizing lo with
  | zero => simp [Memory.readSeqFrom]
  | succ c ih =>
    have key : (m.readSeqFrom lo (c + 1)).isSome = true ↔
        (m.read lo).isSome = true ∧ (m.readSeqFrom (lo + 1) c).isSome = true := by
      simp only [Memory.readSeqFrom]
      cases m.read lo <;> cases m.readSeqFrom (lo + 1) c <;> simp
    rw [key, ih]
    constructor
    · rintro ⟨h0, hk⟩ k hkc
      cases k with
      | zero => simpa using h0
      | succ k =>
        have := hk k (by omega)
        rwa [show lo + 1 + k = lo + (k + 1) by omega] at this
    · intro hk
      refine ⟨by simpa using hk 0 (by omega), fun k hkc => ?_⟩
      have := hk (k + 1) (by omega)
      rwa [show lo + 1 + k = lo + (k + 1) by omega]

/-- A sequence can be read exactly when every entry of it has a value. -/
theorem readSeq_isSome_iff (m : Memory α) (len : Nat) :
    (m.readSeq len).isSome = true ↔ ∀ k < len, (m.read k).isSome = true := by
  simpa [Memory.readSeq] using readSeqFrom_isSome_iff m 0 len

/-- Only the entries below the length decide what sequence is held. -/
theorem readSeqFrom_congr (m m' : Memory α) (lo count : Nat)
    (h : ∀ k < count, m.read (lo + k) = m'.read (lo + k)) : m.readSeqFrom lo count = m'.readSeqFrom lo count := by
  induction count generalizing lo with
  | zero => rfl
  | succ c ih =>
    have h0 := h 0 (by omega)
    have hs := ih (lo + 1) fun k hk => by
      have := h (k + 1) (by omega)
      rwa [show lo + (k + 1) = lo + 1 + k by omega] at this
    simp only [Memory.readSeqFrom, hs]
    simp only [Nat.add_zero] at h0
    rw [h0]

theorem readSeq_congr (m m' : Memory α) (len : Nat) (h : ∀ k < len, m.read k = m'.read k) :
    m.readSeq len = m'.readSeq len := readSeqFrom_congr m m' 0 len (by simpa using h)

/-- The buffers of the reset state are in canonical form. -/
theorem wf_reset : State.reset.ibuf.wf Config.lenMax = true ∧ State.reset.obuf.wf Config.outMax = true ∧
    State.reset.cwbuf.wf Config.cwMax = true := ⟨rfl, rfl, rfl⟩

end Sys2Proof.Machine.Memory
end

