-- ==== Sys2Proof/Laws/Command.lean ====
section
/-! SUPPORT. Operand assembly, the front end and the order of events, each said once: what a command can do. -/

namespace Sys2Proof.Machine

/-- The unit of a command: its response on an accepted input, from the divisor, the threshold and the bits. -/
def unitOf : Instr → Bits → Nat → Bits → Response
  | .generateCrc _ => fun d _ m => { err := none, valid := false, out := generateCrc m d, cw := [] }
  | .verifyCrc _ => fun d _ c => { err := none, valid := verifyCrc c d, out := [], cw := [] }
  | .stuff _ => fun _ n b => { err := none, valid := false, out := stuff b n, cw := [] }
  | .unstuff _ => fun _ n b => { err := none, valid := false, out := unstuff b n, cw := [] }
  | .encodeFrame _ => fun d n m => { err := none, valid := false, out := encodeFrame m n d, cw := codeword m d }
  | .decodeFrame _ => fun d n b =>
      { err := none, valid := verifyCrc (unstuff b n) d, out := messagePart (unstuff b n) d, cw := unstuff b n }

@[simp] theorem unitOf_err (i : Instr) (d : Bits) (n : Nat) (b : Bits) : (unitOf i d n b).err = none := by
  cases i <;> rfl

/-- Every command is `perform` on its row of 30_encoding.md R89 and its unit. -/
theorem exec_eq_perform (i : Instr) (s : State) :
    exec i s = perform (usesOf i) (fieldsOfInstr i) (unitOf i) s := by
  cases i <;> rfl

/-- Everything `perform` can do: refuse in assembly, reject in the front end, or complete. -/
theorem perform_cases (u : Uses) (f : Fields) (unit : Bits → Nat → Bits → Response) (s : State) :
    (∃ r, assemble u f s = .error r ∧ perform u f unit s = .refused r) ∨
    (∃ o k, assemble u f s = .ok o ∧ frontEnd u o = .error k ∧ perform u f unit s = .next (reject k s)) ∨
    (∃ o b, assemble u f s = .ok o ∧ frontEnd u o = .ok b ∧
      perform u f unit s = .next (complete (unit o.divisor o.n b) s)) := by
  unfold perform
  cases h : assemble u f s with
  | error r => exact .inl ⟨r, rfl, rfl⟩
  | ok o =>
    cases h' : frontEnd u o with
    | error k => exact .inr (.inl ⟨o, k, rfl, h', by simp [h']⟩)
    | ok b => exact .inr (.inr ⟨o, b, rfl, h', by simp [h']⟩)

/-- If a command answers a next state, it is that of a rejection or of an accepted command's completion. -/
theorem exec_next {i : Instr} {s t : State} (h : exec i s = .next t) :
    (∃ o k, assemble (usesOf i) (fieldsOfInstr i) s = .ok o ∧ frontEnd (usesOf i) o = .error k ∧ t = reject k s) ∨
    (∃ o b, assemble (usesOf i) (fieldsOfInstr i) s = .ok o ∧ frontEnd (usesOf i) o = .ok b ∧
      t = complete (unitOf i o.divisor o.n b) s) := by
  rw [exec_eq_perform] at h
  rcases perform_cases (usesOf i) (fieldsOfInstr i) (unitOf i) s with ⟨r, _, h'⟩ | ⟨o, k, ha, hf, h'⟩ | ⟨o, b, ha, hf, h'⟩
  · rw [h'] at h; cases h
  · rw [h'] at h; cases h; exact .inl ⟨o, k, ha, hf, rfl⟩
  · rw [h'] at h; cases h; exact .inr ⟨o, b, ha, hf, rfl⟩

/-- If a step answers a next state, its word decodes and the command answers that state. -/
theorem step_next {s t : State} (h : step s = .next t) : ∃ i, decode s.cmdw = .ok i ∧ exec i s = .next t := by
  unfold step fetchCommand at h
  cases hd : decode s.cmdw with
  | error e => rw [hd] at h; cases h
  | ok i => rw [hd] at h; exact ⟨i, rfl, h⟩

/-- The front end's checks (42_pipeline.md R171), one equation for each outcome. -/
theorem frontEnd_empty (u : Uses) (o : Operands) (h : o.input = []) : frontEnd u o = .error .emptyInput := by
  simp [frontEnd, h]

theorem frontEnd_alphabet (u : Uses) (o : Operands) (h : o.input ≠ []) (h' : o.input.all isBit = false) :
    frontEnd u o = .error .invalidAlphabet := by
  simp only [frontEnd, if_neg h, h', if_true]

theorem frontEnd_threshold (u : Uses) (o : Operands) (h : o.input ≠ []) (h' : o.input.all isBit = true)
    (hu : u.threshold = true) (hn : o.n = 0) : frontEnd u o = .error .invalidThreshold := by
  simp [frontEnd, h, h', hu, hn]

theorem frontEnd_ok (u : Uses) (o : Operands) (h : o.input ≠ []) (h' : o.input.all isBit = true)
    (hn : u.threshold = true → o.n ≠ 0) : frontEnd u o = .ok (o.input.map bitOf) := by
  simp only [frontEnd, if_neg h, h', Bool.true_eq_false, if_false, ite_eq_right_iff, reduceCtorEq, imp_false, not_and]
  exact hn

/-- An accepted input is a non-empty sequence of bits, and `N >= 1` where it is used (42_pipeline.md R171). -/
theorem frontEnd_eq_ok {u : Uses} {o : Operands} {b : Bits} (h : frontEnd u o = .ok b) :
    o.input ≠ [] ∧ o.input.all isBit = true ∧ (u.threshold = true → o.n ≠ 0) ∧ b = o.input.map bitOf := by
  unfold frontEnd at h
  by_cases h1 : o.input = []
  · simp [h1] at h
  · by_cases h2 : o.input.all isBit = false
    · simp only [if_neg h1, h2, if_true, reduceCtorEq] at h
    · by_cases h3 : u.threshold = true ∧ o.n = 0
      · simp only [if_neg h1, if_neg h2, if_pos h3, reduceCtorEq] at h
      · simp only [if_neg h1, if_neg h2, if_neg h3, Except.ok.injEq] at h
        exact ⟨h1, by simpa using h2, fun hu hn => h3 ⟨hu, hn⟩, h.symm⟩

@[simp] theorem isBit_symbolOf (b : Bool) : isBit (symbolOf b) = true := by cases b <;> rfl
@[simp] theorem bitOf_symbolOf (b : Bool) : bitOf (symbolOf b) = b := by cases b <;> rfl

@[simp] theorem all_isBit_symbolOf (b : Bits) : (b.map symbolOf).all isBit = true := by simp
@[simp] theorem map_bitOf_symbolOf (b : Bits) : (b.map symbolOf).map bitOf = b := by
  simp [Function.comp_def]

/-- The explicit divisor has the length asked for. -/
@[simp] theorem length_explicitDivisor (v : BitVec 64) (len : Nat) : (explicitDivisor v len).length = len := by
  simp [explicitDivisor]

theorem explicitDivisor_getElem? (v : BitVec 64) (len k : Nat) (h : k < len) :
    (explicitDivisor v len)[k]? = some (v.getLsbD (len - 1 - k)) := by
  simp [explicitDivisor, List.getElem?_range h]

theorem upperBitsZero_iff (v : BitVec 64) (len : Nat) :
    upperBitsZero v len = true ↔ ∀ j < 64, len ≤ j → v.getLsbD j = false := by
  simp only [upperBitsZero, decide_eq_true_eq, BitVec.getLsbD]
  constructor
  · intro h j _ hj
    exact Nat.testBit_lt_two_pow (Nat.lt_of_lt_of_le h (Nat.pow_le_pow_right (by omega) hj))
  · intro h
    apply Nat.lt_pow_two_of_testBit
    intro j hj
    by_cases h64 : j < 64
    · exact h j h64 hj
    · exact Nat.testBit_lt_two_pow (Nat.lt_of_lt_of_le v.isLt (Nat.pow_le_pow_right (by omega) (by omega)))

/-- The divisor the model selects is exactly the one the spec says a command presents (30_encoding.md R87, R88). -/
theorem selectDivisor_eq_some_iff (f : Fields) (s : State) (d : Bits) :
    selectDivisor f s.div = some d ↔ SelectsDivisor f s d := by
  unfold selectDivisor SelectsDivisor
  by_cases hf : f.dsel = true
  · simp only [hf, if_true]
    by_cases hw : Config.dlenMin ≤ f.dlen.toNat ∧ f.dlen.toNat ≤ Config.dlenMax ∧
        s.div.getLsbD (f.dlen.toNat - 1) = true ∧ upperBitsZero s.div f.dlen.toNat = true
    · rw [if_pos hw]
      obtain ⟨h1, h2, h3, h4⟩ := hw
      simp only [Config.dlenMin, Config.dlenMax] at h1 h2
      constructor
      · intro h
        cases h
        simp only [length_explicitDivisor, DivisorWellFormed, true_and]
        refine ⟨h2, ⟨h1, ?_⟩, fun k hk => explicitDivisor_getElem? _ _ _ hk, (upperBitsZero_iff _ _).1 h4⟩
        rw [explicitDivisor_getElem? _ _ _ (by omega)]; simpa using h3
      · rintro ⟨hl, _, _, hk, _⟩
        refine congrArg some (List.ext_getElem? fun k => ?_)
        by_cases hkl : k < f.dlen.toNat
        · rw [explicitDivisor_getElem? _ _ _ hkl, hk k (by omega), hl]
        · rw [List.getElem?_eq_none (by simpa using hkl), List.getElem?_eq_none (by omega)]
    · rw [if_neg hw]
      simp only [reduceCtorEq, false_iff]
      rintro ⟨hl, h64, ⟨h2, h0⟩, hk, hj⟩
      refine hw ⟨by simpa [Config.dlenMin] using hl ▸ h2, by simpa [Config.dlenMax] using hl ▸ h64, ?_, ?_⟩
      · have := hk 0 (by omega)
        rw [h0] at this
        simpa [hl] using this.symm
      · rw [upperBitsZero_iff, ← hl]; exact hj
  · simp only [Bool.not_eq_true] at hf
    simp only [hf, Bool.false_eq_true, if_false, Option.some.injEq, Config.defaultDivisor]
    exact eq_comm

/-- Assembling the input succeeds with `ys` exactly when the state presents `ys` (30_encoding.md R87). -/
theorem assembleInput_eq_ok_iff (s : State) (ys : List Symbol) :
    assembleInput s = .ok ys ↔ PresentsSymbols s ys := by
  unfold assembleInput PresentsSymbols
  by_cases hlen : s.ilen.toNat ≤ Config.lenMax
  · rw [if_pos hlen]
    have h1024 : s.ilen.toNat ≤ 1024 := hlen
    cases h : s.ibuf.readSeq s.ilen.toNat with
    | none =>
      simp only [reduceCtorEq, false_iff]
      rintro ⟨hl, _, hk⟩
      have := (Memory.readSeq_eq_some_iff s.ibuf s.ilen.toNat ys).2 ⟨hl.symm, fun k hk' => hk k (by omega)⟩
      rw [this] at h; cases h
    | some zs =>
      have hz := (Memory.readSeq_eq_some_iff _ _ _).1 h
      simp only [Except.ok.injEq]
      constructor
      · rintro rfl
        exact ⟨hz.1.symm, by omega, fun k hk => hz.2 k (by omega)⟩
      · rintro ⟨hl, _, hk⟩
        have := (Memory.readSeq_eq_some_iff s.ibuf s.ilen.toNat ys).2 ⟨hl.symm, fun k hk' => hk k (by omega)⟩
        rw [this] at h; cases h; rfl
  · rw [if_neg hlen]
    simp only [reduceCtorEq, false_iff]
    rintro ⟨hl, h1024, _⟩
    exact hlen (hl ▸ h1024)

/-- Operand assembly succeeds exactly with what the state presents (30_encoding.md R87). -/
theorem assemble_eq_ok_iff (u : Uses) (f : Fields) (s : State) (o : Operands) :
    assemble u f s = .ok o ↔
      (if u.divisor then SelectsDivisor f s o.divisor else o.divisor = []) ∧ o.n = f.n.toNat ∧
        PresentsSymbols s o.input := by
  obtain ⟨od, on, oi⟩ := o
  rw [← assembleInput_eq_ok_iff]
  unfold assemble
  cases hu : u.divisor with
  | false =>
    simp only [Bool.false_eq_true, if_false]
    cases assembleInput s with
    | error r => simp
    | ok ys => simp only [Except.ok.injEq, Operands.mk.injEq]; tauto
  | true =>
    simp only [if_true]
    rw [← selectDivisor_eq_some_iff]
    cases selectDivisor f s.div with
    | none => simp
    | some d =>
      cases assembleInput s with
      | error r => simp
      | ok ys => simp only [Except.ok.injEq, Operands.mk.injEq, Option.some.injEq]; tauto

/-- What a command does on assembled operands: only the front end decides between rejection and completion. -/
theorem exec_of_assembled {i : Instr} {s : State} {o : Operands}
    (h : assemble (usesOf i) (fieldsOfInstr i) s = .ok o) :
    exec i s = match frontEnd (usesOf i) o with
      | .error k => .next (reject k s)
      | .ok b => .next (complete (unitOf i o.divisor o.n b) s) := by
  cases hf : frontEnd (usesOf i) o <;> simp [exec_eq_perform, perform, h, hf]

/-- A presented command assembles (30_encoding.md R87). The stuffer and the unstuffer take the empty divisor. -/
theorem assemble_presented {i : Instr} {s : State} {d : Bits} {ys : List Symbol} (hd : PresentsDivisor i s d)
    (hy : PresentsSymbols s ys) :
    assemble (usesOf i) (fieldsOfInstr i) s =
      .ok { divisor := if usesDivisor i then d else [], n := (fieldsOfInstr i).n.toNat, input := ys } := by
  rw [assemble_eq_ok_iff]
  cases i <;> exact ⟨by first | exact hd | rfl, rfl, hy⟩

/-- A presented command with an accepted input completes with its unit's response. -/
theorem exec_accepted {i : Instr} {s : State} {d b : Bits} (hd : PresentsDivisor i s d) (hb : PresentsBits s b)
    (hn : usesThreshold i = true → (fieldsOfInstr i).n ≠ 0) :
    exec i s = .next (complete (unitOf i (if usesDivisor i then d else []) (fieldsOfInstr i).n.toNat b) s) := by
  rw [exec_of_assembled (assemble_presented hd hb.2),
    frontEnd_ok _ _ (by simpa using hb.1) (all_isBit_symbolOf b)
      (fun hu h0 => hn hu (BitVec.eq_of_toNat_eq (by simpa using h0)))]
  simp only [map_bitOf_symbolOf]

/-- The refusals that assembling the input can end in. -/
theorem assembleInput_error {s : State} {r : Refusal} (h : assembleInput s = .error r) :
    r = .inputTooLong ∨ r = .inputNotWritten := by
  unfold assembleInput at h
  by_cases hl : s.ilen.toNat ≤ Config.lenMax
  · rw [if_pos hl] at h
    cases hr : s.ibuf.readSeq s.ilen.toNat <;> simp_all
  · rw [if_neg hl] at h
    simp_all

/-- The refusals that operand assembly can end in (30_encoding.md R92; log 3, log 6). -/
theorem assemble_error {u : Uses} {f : Fields} {s : State} {r : Refusal} (h : assemble u f s = .error r) :
    r = .illFormedDivisor ∨ r = .inputTooLong ∨ r = .inputNotWritten := by
  unfold assemble at h
  cases hd : (if u.divisor then selectDivisor f s.div else some []) with
  | none => rw [hd] at h; exact .inl (by simpa using h.symm)
  | some d =>
    rw [hd] at h
    cases hi : assembleInput s with
    | error r' => rw [hi] at h; cases h; exact .inr (assembleInput_error hi)
    | ok ys => rw [hi] at h; cases h

/-- The input assembled depends only on `ILEN` and the entries below it (10_state.md R25, R31). -/
theorem assembleInput_congr {s t : State} (hl : s.ilen = t.ilen)
    (hk : ∀ k < s.ilen.toNat, s.ibuf.read k = t.ibuf.read k) : assembleInput s = assembleInput t := by
  unfold assembleInput
  rw [← hl, Memory.readSeq_congr _ _ _ hk]

/-- What a command tells the host depends only on the operands it assembles. -/
theorem perform_sameOutcome (u : Uses) {f g : Fields} (unit : Bits → Nat → Bits → Response) {s t : State}
    (h : assemble u f s = assemble u g t) : SameOutcome (perform u f unit s) (perform u g unit t) := by
  cases ha : assemble u g t with
  | error r => simp [perform, h, ha, SameOutcome]
  | ok o =>
    cases hf : frontEnd u o <;> simp [perform, h, ha, hf, SameOutcome, SameResponse]

/-- A textual line whose `d` has 256 symbols or more spells no command (log 11). -/
theorem command_of_long_divisor {c : CommandLine} {cs : List Char} {d : Bits} (hc : c.d = some cs)
    (hb : bitsOfChars cs = some d) (hl : 256 ≤ d.length) : c.command = none := by
  unfold CommandLine.command
  rw [hc]
  cases symbolsOfChars c.input with
  | none => rfl
  | some ys => simp [hb, Nat.not_lt.2 hl]

end Sys2Proof.Machine
end

