-- ==== Sys2Proof/Laws/PerInstr.lean ====
section
/-! SUPPORT. The family `OpcodeRow`, one lemma per command: its word matches its row of 30_encoding.md R90 under the
mask `0xFF0000F7`. -/

namespace Sys2Proof.Laws

/-- Under the mask of 30_encoding.md R90 only `OP` is left of a command word. -/
theorem commandWord_masked (op : BitVec 3) (f : Fields) :
    commandWord op f &&& 0xFF0000F7#32 = op.setWidth 32 := by
  apply BitVec.eq_of_getLsbD_eq
  intro k hk
  rw [BitVec.getLsbD_and, getLsbD_commandWord, BitVec.getLsbD_setWidth]
  have hm : ∀ k < 32, (0xFF0000F7#32).getLsbD k =
      (decide (k < 3) || (decide (4 ≤ k) && decide (k < 8)) || decide (24 ≤ k)) := by decide
  rw [hm k hk]
  by_cases h3 : k < 3
  · simp [h3]; omega
  · have hop : op.getLsbD k = false := BitVec.getLsbD_of_ge op k (by omega)
    by_cases h4 : k = 3
    · subst h4; simp
    · by_cases h8 : k < 8
      · simp [h3, h4, h8, hop]
      · by_cases h24 : k < 24
        · simp [h3, h8, hop, show ¬ 24 ≤ k by omega]
        · simp [h3, h4, h8, h24, hop, show ¬ k < 16 by omega]

namespace OpcodeRow

/-- The command's word matches its row: `CMDW & 0xFF0000F7` is the row's `match` (30_encoding.md R90). -/
def Statement (i : Instr) : Prop :=
  encode i &&& 0xFF0000F7#32 =
    match i with
    | .generateCrc _ => 0x00000000#32
    | .verifyCrc _ => 0x00000001#32
    | .stuff _ => 0x00000002#32
    | .unstuff _ => 0x00000003#32
    | .encodeFrame _ => 0x00000004#32
    | .decodeFrame _ => 0x00000005#32

theorem generateCrc (f : Fields) : Statement (.generateCrc f) := commandWord_masked 0 f
theorem verifyCrc (f : Fields) : Statement (.verifyCrc f) := commandWord_masked 1 f
theorem stuff (f : Fields) : Statement (.stuff f) := commandWord_masked 2 f
theorem unstuff (f : Fields) : Statement (.unstuff f) := commandWord_masked 3 f
theorem encodeFrame (f : Fields) : Statement (.encodeFrame f) := commandWord_masked 4 f
theorem decodeFrame (f : Fields) : Statement (.decodeFrame f) := commandWord_masked 5 f

end OpcodeRow

end Sys2Proof.Laws
end

