-- ==== Sys2Proof/Laws/Units.lean ====
section
/-! SUPPORT. Small lemmas of the units: lengths, the window XOR symbol by symbol, one equation per input shape. -/

namespace Sys2Proof.Machine

@[simp] theorem length_zeros (k : Nat) : (zeros k).length = k := by simp [zeros]

@[simp] theorem length_xorLead (d w : Bits) : (xorLead d w).length = w.length := by
  induction d generalizing w with
  | nil => rfl
  | cons a d ih => cases w <;> simp [xorLead, ih]

@[simp] theorem length_xorWindow (i : Nat) (d w : Bits) : (xorWindow i d w).length = w.length := by
  induction i generalizing w with
  | zero => simp [xorWindow]
  | succ i ih => cases w <;> simp [xorWindow, ih]

@[simp] theorem length_divPosition (d w : Bits) (i : Nat) : (divPosition d w i).length = w.length := by
  unfold divPosition; split <;> simp

theorem length_foldl_divPosition (d : Bits) (is : List Nat) (w : Bits) :
    (is.foldl (divPosition d) w).length = w.length := by
  induction is generalizing w with
  | nil => rfl
  | cons i is ih => simp [ih]

/-- The XOR of a window, symbol by symbol (40_crc.md R111): inside the window `xor` with `D`, outside unchanged. -/
theorem xorLead_getElem? (d w : Bits) (k : Nat) :
    (xorLead d w)[k]? = w[k]?.map (fun b => b ^^ d.getD k false) := by
  induction d generalizing w k with
  | nil => simp [xorLead]
  | cons a d ih =>
    cases w with
    | nil => simp [xorLead]
    | cons b w => cases k <;> simp [xorLead, ih]

theorem xorWindow_getElem? (i : Nat) (d w : Bits) (k : Nat) :
    (xorWindow i d w)[k]? = w[k]?.map (fun b => b ^^ (if i ≤ k then d.getD (k - i) false else false)) := by
  induction i generalizing w k with
  | zero => simp [xorWindow, xorLead_getElem?]
  | succ i ih =>
    cases w with
    | nil => simp [xorWindow]
    | cons b w => cases k <;> simp [xorWindow, ih]

/-- A division of a sequence shorter than `D` has no position. -/
theorem div2_of_short (w d : Bits) (h : w.length < d.length) : div2 w d = w := by
  simp [div2, show w.length + 1 - d.length = 0 by omega]

@[simp] theorem length_lastBits (s : Bits) (k : Nat) : (lastBits s k).length = min s.length k := by
  simp [lastBits]; omega

theorem allZero_iff (s : Bits) : allZero s = true ↔ ∀ b ∈ s, b = false := by simp [allZero]

@[simp] theorem stuffFrom_nil (n c : Nat) : stuffFrom n c [] = [] := by simp [stuffFrom]
@[simp] theorem stuffFrom_false (n c : Nat) (s : Bits) : stuffFrom n c (false :: s) = false :: stuffFrom n 0 s := by
  simp [stuffFrom]
theorem stuffFrom_true (n c : Nat) (s : Bits) :
    stuffFrom n c (true :: s) =
      if c + 1 = n then true :: false :: stuffFrom n 0 s else true :: stuffFrom n (c + 1) s := by
  simp [stuffFrom]

@[simp] theorem unstuffFrom_nil (n c : Nat) : unstuffFrom n c [] = [] := by simp [unstuffFrom]
@[simp] theorem unstuffFrom_false (n c : Nat) (s : Bits) :
    unstuffFrom n c (false :: s) = false :: unstuffFrom n 0 s := by simp [unstuffFrom]
@[simp] theorem unstuffFrom_true_nil (n c : Nat) : unstuffFrom n c [true] = [true] := by simp [unstuffFrom]
@[simp] theorem unstuffFrom_true_true (n c : Nat) (s : Bits) :
    unstuffFrom n c (true :: true :: s) = true :: unstuffFrom n (c + 1) (true :: s) := by
  rw [unstuffFrom]; simp
theorem unstuffFrom_true_false (n c : Nat) (s : Bits) :
    unstuffFrom n c (true :: false :: s) =
      if c + 1 = n then true :: unstuffFrom n 0 s else true :: false :: unstuffFrom n 0 s := by
  rw [unstuffFrom]; simp

@[simp] theorem length_polyMul (q d : Bits) : (polyMul q d).length = q.length + (d.length - 1) := by
  induction q with
  | nil => simp [polyMul]
  | cons b q ih => simp [polyMul, ih]; omega

@[simp] theorem length_xorBits (a b : Bits) : (xorBits a b).length = min a.length b.length := by
  induction a generalizing b with
  | nil => simp [xorBits]
  | cons x a ih => cases b <;> simp [xorBits, ih]

end Sys2Proof.Machine
end

