-- ==== Sys2Proof/Laws/Stages.lean ====
section
/-! SUPPORT. A command stepped through its stages: what one inner step can do, how runs compose, how a loop of one unit
runs to its end, and the invariant of the transients. -/

namespace Sys2Proof.Machine

/-! ## Runs -/

@[simp] theorem innerRun_zero (p : Progress) : innerRun 0 p = .next p := rfl

theorem innerRun_succ_of_next {p q : Progress} (h : innerStep p = .next q) (k : Nat) :
    innerRun (k + 1) p = innerRun k q := by
  simp [innerRun, h]

theorem innerRun_succ_of_refused {p : Progress} {r : Refusal} (h : innerStep p = .refused r) (k : Nat) :
    innerRun (k + 1) p = .refused r := by
  simp [innerRun, h]

/-- A run goes on from where its first part ended. -/
theorem innerRun_add {p q : Progress} {j : Nat} (h : innerRun j p = .next q) (k : Nat) :
    innerRun (j + k) p = innerRun k q := by
  induction j generalizing p with
  | zero => cases h; simp
  | succ j ih =>
    rw [Nat.succ_add]
    cases hs : innerStep p with
    | next p' => rw [innerRun_succ_of_next hs] at h ⊢; exact ih h
    | fault e => cases e
    | refused r => rw [innerRun_succ_of_refused hs] at h; cases h

/-- A command that has ended stays as it is. -/
theorem innerRun_ended (k : Nat) (s : State) :
    innerRun k { state := s, stage := .ended } = .next { state := s, stage := .ended } := by
  induction k with
  | zero => rfl
  | succ k ih => exact (innerRun_succ_of_next rfl k).trans ih

/-- What is true at the start and kept by every inner step is true after any number of them. -/
theorem innerRun_induction {P : Progress → Prop} (hstep : ∀ p q, P p → innerStep p = .next q → P q) {k : Nat}
    {p q : Progress} (hp : P p) (h : innerRun k p = .next q) : P q := by
  induction k generalizing p with
  | zero => cases h; exact hp
  | succ k ih =>
    cases hs : innerStep p with
    | next p' => rw [innerRun_succ_of_next hs] at h; exact ih (hstep _ _ hp hs) h
    | fault e => cases e
    | refused r => rw [innerRun_succ_of_refused hs] at h; cases h

/-! ## One inner step -/

/-- Everything an inner step that answers can do: assemble, reject, accept, go on with the units, write the response, or
nothing once the command has ended. -/
theorem innerStep_next {p q : Progress} (h : innerStep p = .next q) :
    (∃ i o, p.stage = .issued ∧ decode p.state.cmdw = .ok i ∧
      assemble (usesOf i) (fieldsOfInstr i) p.state = .ok o ∧ q = { p with stage := .assembled i o }) ∨
    (∃ i o k, p.stage = .assembled i o ∧ frontEnd (usesOf i) o = .error k ∧
      q = { state := reject k p.state, stage := .ended }) ∨
    (∃ i o b, p.stage = .assembled i o ∧ frontEnd (usesOf i) o = .ok b ∧
      q = { p with stage := .running (startWork i o b) }) ∨
    (∃ t, p.stage = .running t ∧ q = { p with stage := workStep t }) ∨
    (∃ r, p.stage = .responding r ∧ q = { state := complete r p.state, stage := .ended }) ∨
    (p.stage = .ended ∧ q = p) := by
  unfold innerStep fetchCommand at h
  cases hs : p.stage with
  | issued =>
    simp only [hs] at h
    cases hd : decode p.state.cmdw with
    | error e => rw [hd] at h; cases h
    | ok i =>
      simp only [hd] at h
      cases ha : assemble (usesOf i) (fieldsOfInstr i) p.state with
      | error r => rw [ha] at h; cases h
      | ok o => rw [ha] at h; cases h; exact .inl ⟨i, o, rfl, rfl, ha, rfl⟩
  | assembled i o =>
    simp only [hs] at h
    cases hf : frontEnd (usesOf i) o with
    | error k => rw [hf] at h; cases h; exact .inr (.inl ⟨i, o, k, rfl, hf, rfl⟩)
    | ok b => rw [hf] at h; cases h; exact .inr (.inr (.inl ⟨i, o, b, rfl, hf, rfl⟩))
  | running t => rw [hs] at h; cases h; exact .inr (.inr (.inr (.inl ⟨t, rfl, rfl⟩)))
  | responding r => rw [hs] at h; cases h; exact .inr (.inr (.inr (.inr (.inl ⟨r, rfl, rfl⟩))))
  | ended => rw [hs] at h; cases h; exact .inr (.inr (.inr (.inr (.inr ⟨rfl, rfl⟩))))

/-- Until a command ends, the state is the one it was issued in (10_state.md R37, 70_reset_and_hazards.md R258). -/
theorem innerStep_state {p q : Progress} (h : innerStep p = .next q) (hq : q.stage ≠ .ended) : q.state = p.state := by
  rcases innerStep_next h with ⟨_, _, _, _, _, rfl⟩ | ⟨_, _, _, _, _, rfl⟩ | ⟨_, _, _, _, _, rfl⟩ | ⟨_, _, rfl⟩ |
    ⟨_, _, rfl⟩ | ⟨_, rfl⟩ <;> first | rfl | exact absurd rfl hq

/-! ## Loops -/

/-- A unit's loop, met in a run: from registers `r` it makes at most as many iterations as are left, and ends in
registers that have no further one. `P` says where the registers stand, `next` and `iter` are the unit's. -/
theorem innerRun_loop {R : Type} {next : R → Option R} {iter : R → R} {left : R → Nat} {P : R → Progress}
    (hstep : ∀ r r', next r = some r' → innerStep (P r) = .next (P r'))
    (hnext : ∀ r, 0 < left r → next r = some (iter r)) (hend : ∀ r, left r = 0 → next r = none)
    (hdec : ∀ r, 0 < left r → left (iter r) < left r) (r : R) :
    ∃ k ≤ left r, innerRun k (P r) = .next (P (iter^[k] r)) ∧ next (iter^[k] r) = none ∧ left (iter^[k] r) = 0 := by
  suffices h : ∀ m r, left r = m →
      ∃ k ≤ m, innerRun k (P r) = .next (P (iter^[k] r)) ∧ next (iter^[k] r) = none ∧ left (iter^[k] r) = 0 from
    h _ r rfl
  intro m
  induction m using Nat.strong_induction_on with
  | _ m ih =>
    intro r hm
    by_cases h0 : left r = 0
    · exact ⟨0, Nat.zero_le _, rfl, hend r h0, h0⟩
    · have hpos : 0 < left r := Nat.pos_of_ne_zero h0
      obtain ⟨k, hk, hrun, hn, hl⟩ := ih _ (hm ▸ hdec r hpos) (iter r) rfl
      have := hdec r hpos
      exact ⟨k + 1, by omega, by rw [innerRun_succ_of_next (hstep _ _ (hnext r hpos))]; exact hrun, hn, hl⟩

@[simp] theorem divIteration_i (d : Bits) (r : DivRegs) : (divIteration d r).i = r.i + 1 := rfl

@[simp] theorem length_xorLoop (d : Bits) (i : Nat) (w : Bits) : (xorLoop d i w).length = w.length := by
  unfold xorLoop
  induction List.range d.length generalizing w with
  | nil => rfl
  | cons j js ih => exact (ih _).trans List.length_set

@[simp] theorem length_divIteration_w (d : Bits) (r : DivRegs) : (divIteration d r).w.length = r.w.length := by
  simp only [divIteration]; split <;> simp

/-- What one iteration of the stuffer's loop does before the end: one symbol on, and one or two symbols copied. -/
theorem stuffIteration_cases (s : Bits) (n : Nat) (r : StuffRegs) (h : r.i < s.length) :
    (∃ b, stuffIteration s n r = { i := r.i + 1, cnt := 0, out := r.out ++ [b] }) ∨
    (r.cnt + 1 = n ∧ stuffIteration s n r = { i := r.i + 1, cnt := 0, out := r.out ++ [true] ++ [false] }) ∨
    (r.cnt + 1 ≠ n ∧ stuffIteration s n r = { i := r.i + 1, cnt := r.cnt + 1, out := r.out ++ [true] }) := by
  unfold stuffIteration
  rw [List.getElem?_eq_getElem h]
  cases s[r.i] with
  | false => exact .inl ⟨false, rfl⟩
  | true =>
    by_cases hc : r.cnt + 1 = n
    · exact .inr (.inl ⟨hc, by simp [hc]⟩)
    · exact .inr (.inr ⟨hc, by simp [hc]⟩)

/-- What one iteration of the unstuffer's loop does before the end: one symbol copied, and one or two passed. -/
theorem unstuffIteration_cases (s : Bits) (n : Nat) (r : UnstuffRegs) (h : r.i < s.length) :
    (∃ b, unstuffIteration s n r = { i := r.i + 1, cnt := 0, out := r.out ++ [b] }) ∨
    (r.i + 1 < s.length ∧ unstuffIteration s n r = { i := r.i + 2, cnt := 0, out := r.out ++ [true] }) ∨
    unstuffIteration s n r = { i := r.i + 1, cnt := r.cnt + 1, out := r.out ++ [true] } := by
  unfold unstuffIteration
  rw [List.getElem?_eq_getElem h]
  cases s[r.i] with
  | false => exact .inl ⟨false, rfl⟩
  | true =>
    by_cases hc : r.cnt + 1 = n ∧ s[r.i + 1]? = some false
    · refine .inr (.inl ⟨?_, by simp only [if_pos hc]⟩)
      by_contra hge
      rw [List.getElem?_eq_none (by omega)] at hc
      exact absurd hc.2 (by simp)
    · exact .inr (.inr (by simp only [if_neg hc]))

/-! ## The invariant of the transients -/

theorem divNext_eq_some {d : Bits} {r r' : DivRegs} (h : divNext d r = some r') :
    r.i + d.length ≤ r.w.length ∧ r' = divIteration d r := by
  unfold divNext at h
  split at h
  · exact ⟨‹_›, by simpa using h.symm⟩
  · cases h

theorem stuffNext_eq_some {s : Bits} {n : Nat} {r r' : StuffRegs} (h : stuffNext s n r = some r') :
    r.i < s.length ∧ r' = stuffIteration s n r := by
  unfold stuffNext at h
  split at h
  · exact ⟨‹_›, by simpa using h.symm⟩
  · cases h

theorem unstuffNext_eq_some {s : Bits} {n : Nat} {r r' : UnstuffRegs} (h : unstuffNext s n r = some r') :
    r.i < s.length ∧ r' = unstuffIteration s n r := by
  unfold unstuffNext at h
  split at h
  · exact ⟨‹_›, by simpa using h.symm⟩
  · cases h

theorem divStart_sound (d : Bits) {w : Bits} {len : Nat} (h : w.length = len) : (divStart w).Sound d len :=
  ⟨h, Nat.zero_le _⟩

theorem stuffStart_sound (s : Bits) {n : Nat} (h : 1 ≤ n) : stuffStart.Sound s n := by
  simp [StuffRegs.Sound, stuffStart]; omega

theorem unstuffStart_sound (s : Bits) : unstuffStart.Sound s := by
  simp [UnstuffRegs.Sound, unstuffStart]

theorem divNext_sound {d : Bits} {len : Nat} {r r' : DivRegs} (hr : r.Sound d len) (h : divNext d r = some r') :
    r'.Sound d len := by
  obtain ⟨hi, rfl⟩ := divNext_eq_some h
  obtain ⟨hw, _⟩ := hr
  exact ⟨by simpa using hw, by simp only [divIteration_i]; omega⟩

theorem stuffNext_sound {s : Bits} {n : Nat} {r r' : StuffRegs} (hr : r.Sound s n) (h : stuffNext s n r = some r') :
    r'.Sound s n := by
  obtain ⟨hi, rfl⟩ := stuffNext_eq_some h
  obtain ⟨_, hc, hlo, hhi⟩ := hr
  rcases stuffIteration_cases s n r hi with ⟨b, h'⟩ | ⟨_, h'⟩ | ⟨_, h'⟩ <;> rw [h'] <;>
    simp only [StuffRegs.Sound, List.length_append, List.length_singleton] <;> omega

theorem unstuffNext_sound {s : Bits} {n : Nat} {r r' : UnstuffRegs} (hr : r.Sound s)
    (h : unstuffNext s n r = some r') : r'.Sound s := by
  obtain ⟨hi, rfl⟩ := unstuffNext_eq_some h
  obtain ⟨_, hc, ho⟩ := hr
  rcases unstuffIteration_cases s n r hi with ⟨b, h'⟩ | ⟨_, h'⟩ | h' <;> rw [h'] <;>
    simp only [UnstuffRegs.Sound, List.length_append, List.length_singleton] <;> omega

/-- The front end has checked `N >= 1` for the operations that use it, so an accepted command starts sound. -/
theorem startWork_sound {i : Instr} {o : Operands} {b : Bits} (h : frontEnd (usesOf i) o = .ok b) :
    (startWork i o b).Sound := by
  have hn : usesThreshold i = true → 1 ≤ o.n := fun hu => Nat.pos_of_ne_zero ((frontEnd_eq_ok h).2.2.1 hu)
  cases i <;>
    simp only [usesThreshold, Bool.false_eq_true, false_implies, true_implies] at hn <;>
    simp only [Work.Sound, startWork, firstPhase]
  · exact ⟨divStart_sound _ (by simp), trivial, trivial⟩
  · exact ⟨divStart_sound _ rfl, trivial, trivial⟩
  · exact ⟨stuffStart_sound _ hn, trivial, trivial⟩
  · exact ⟨unstuffStart_sound _, trivial, trivial⟩
  · exact ⟨divStart_sound _ (by simp), hn, trivial, trivial⟩
  · exact ⟨unstuffStart_sound _, trivial, trivial⟩

/-- The units keep their transients sound. -/
theorem workStep_sound {t t' : Work} (ht : t.Sound) (h : workStep t = .running t') : t'.Sound := by
  obtain ⟨d, n, input, out, cw, phase⟩ := t
  cases phase with
  | generateCrc r =>
    simp only [workStep] at h
    cases hx : divNext d r with
    | none => simp [hx] at h
    | some r' => simp only [hx, Stage.running.injEq] at h; subst h; exact ⟨divNext_sound ht.1 hx, ht.2⟩
  | verifyCrc r =>
    simp only [workStep] at h
    cases hx : divNext d r with
    | none => simp [hx] at h
    | some r' => simp only [hx, Stage.running.injEq] at h; subst h; exact ⟨divNext_sound ht.1 hx, ht.2⟩
  | stuff r =>
    simp only [workStep] at h
    cases hx : stuffNext input n r with
    | none => simp [hx] at h
    | some r' => simp only [hx, Stage.running.injEq] at h; subst h; exact ⟨stuffNext_sound ht.1 hx, ht.2⟩
  | unstuff r =>
    simp only [workStep] at h
    cases hx : unstuffNext input n r with
    | none => simp [hx] at h
    | some r' => simp only [hx, Stage.running.injEq] at h; subst h; exact ⟨unstuffNext_sound ht.1 hx, ht.2⟩
  | encodeGenerate r =>
    simp only [workStep] at h
    cases hx : divNext d r with
    | none =>
      simp only [hx, Stage.running.injEq] at h; subst h
      have hw : r.w.length = input.length + (d.length - 1) := ht.1.1
      exact ⟨stuffStart_sound _ ht.2.1, ht.2.2.1, by simp [remainderOf]; omega⟩
    | some r' => simp only [hx, Stage.running.injEq] at h; subst h; exact ⟨divNext_sound ht.1 hx, ht.2⟩
  | encodeStuff r =>
    simp only [workStep] at h
    cases hx : stuffNext cw n r with
    | none => simp [hx] at h
    | some r' => simp only [hx, Stage.running.injEq] at h; subst h; exact ⟨stuffNext_sound ht.1 hx, ht.2⟩
  | decodeUnstuff r =>
    simp only [workStep] at h
    cases hx : unstuffNext input n r with
    | none =>
      simp only [hx, Stage.running.injEq] at h; subst h
      exact ⟨divStart_sound _ rfl, rfl, ht.1.2.2.trans ht.1.1⟩
    | some r' => simp only [hx, Stage.running.injEq] at h; subst h; exact ⟨unstuffNext_sound ht.1 hx, ht.2⟩
  | decodeVerify r =>
    simp only [workStep] at h
    cases hx : divNext d r with
    | none => simp [hx] at h
    | some r' => simp only [hx, Stage.running.injEq] at h; subst h; exact ⟨divNext_sound ht.1 hx, ht.2⟩

theorem issueCommand_sound (s : State) : (issueCommand s).Sound := by
  intro t h; cases h

/-- Every inner step keeps the transients sound (10_state.md R34 to R37, R40). -/
theorem innerStep_sound {p q : Progress} (hp : p.Sound) (h : innerStep p = .next q) : q.Sound := by
  intro t ht
  rcases innerStep_next h with ⟨_, _, _, _, _, rfl⟩ | ⟨_, _, _, _, _, rfl⟩ | ⟨i, o, b, _, hf, rfl⟩ | ⟨u, hu, rfl⟩ |
    ⟨_, _, rfl⟩ | ⟨_, rfl⟩
  · cases ht
  · cases ht
  · cases ht; exact startWork_sound hf
  · exact workStep_sound (hp u hu) ht
  · cases ht
  · exact hp t ht

/-- The transients of an issued command are sound at every point of it. -/
theorem innerRun_sound {s : State} {k : Nat} {p : Progress} (h : innerRun k (issueCommand s) = .next p) : p.Sound :=
  innerRun_induction (P := Progress.Sound) (fun _ _ hp hs => innerStep_sound hp hs) (issueCommand_sound s) h

end Sys2Proof.Machine
end

