-- ==== Sys2Proof/Tests/Slice0.lean ====
section
/-! SUPPORT. Tests with expected values from the spec, and witnesses that the hypotheses of the statements are met. -/

namespace Sys2Proof.Tests

open Sys2Proof.Machine

/-! ## Helpers -/

/-- A state, after reset, whose input is `ys` and whose `DIV` is `v`. -/
def presenting (ys : List Symbol) (v : BitVec 64) : State :=
  { State.reset with div := v, ilen := BitVec.ofNat 16 ys.length, ibuf := Memory.ofSeq ys }

/-- The fields of a command word that says nothing of the divisor. -/
def plain (n : BitVec 8) : Fields := { dsel := false, n := n, dlen := 0 }

/-- `STATUS`, the output and the codeword after a command, or `none` if it did not complete. -/
def response : Result → Option (BitVec 32 × Option Bits × Option Bits)
  | .next t => some (t.status, t.obuf.readSeq t.olen.toNat, t.cwbuf.readSeq t.cwlen.toNat)
  | _ => none

/-- The response to a line (30_encoding.md R96), prepared and issued from reset. -/
def runLine (c : CommandLine) : Option (BitVec 32 × Option Bits × Option Bits) :=
  match c.command with
  | some k => response (runHost k.actions State.reset)
  | none => none

/-- The refusal a step ends in, if it does. -/
def refusal : Result → Option Refusal
  | .refused r => some r
  | _ => none

/-- The state presents what it was built for, at every length up to the capacity. -/
theorem presenting_symbols (ys : List Symbol) (v : BitVec 64) (h : ys.length ≤ 1024) :
    PresentsSymbols (presenting ys v) ys := by
  refine ⟨?_, h, fun k _ => by simp [presenting]⟩
  simp only [presenting, BitVec.toNat_ofNat]
  omega

theorem presenting_bits (b : Bits) (v : BitVec 64) (h0 : b ≠ []) (h : b.length ≤ 1024) :
    PresentsBits (presenting (b.map symbolOf) v) b := ⟨h0, presenting_symbols _ v (by simpa using h)⟩

/-- No divisor is presented where none is selected. -/
theorem no_divisor {f : Fields} {s : State} (h : selectDivisor f s.div = none) : ¬ ∃ d, SelectsDivisor f s d := by
  rintro ⟨d, hd⟩
  rw [← selectDivisor_eq_some_iff, h] at hd
  cases hd

/-! ## Well-formedness: each check refuses an ill-formed term (10_state.md R22) -/

theorem test_wf_refuses_dlen_1 : Instr.wellFormed (.generateCrc { dsel := true, n := 0, dlen := 1 }) = false := by decide
theorem test_wf_refuses_dlen_65 : Instr.wellFormed (.verifyCrc { dsel := true, n := 0, dlen := 65 }) = false := by decide
theorem test_wf_refuses_dlen_0 : Instr.wellFormed (.encodeFrame { dsel := true, n := 1, dlen := 0 }) = false := by decide
theorem test_wf_refuses_dlen_255 : Instr.wellFormed (.decodeFrame { dsel := true, n := 1, dlen := 255 }) = false := by decide
theorem test_wf_accepts_bounds :
    Instr.wellFormed (.generateCrc { dsel := true, n := 0, dlen := 2 }) = true ∧
    Instr.wellFormed (.decodeFrame { dsel := true, n := 0, dlen := 64 }) = true ∧
    Instr.wellFormed (.stuff { dsel := true, n := 0, dlen := 1 }) = true ∧
    Instr.wellFormed (.unstuff { dsel := true, n := 0, dlen := 255 }) = true := by decide

/-! ## Decoding: words written out bit by bit from 30_encoding.md R81, `reserved DLEN N reserved DSEL OP` -/

theorem test_decode_generate_crc :
    decode 0b00000000_00000101_00000000_0000_1_000 = .ok (.generateCrc { dsel := true, n := 0, dlen := 5 }) := by decide
theorem test_decode_verify_crc :
    decode 0b00000000_00000000_11111111_0000_0_001 = .ok (.verifyCrc { dsel := false, n := 255, dlen := 0 }) := by decide
theorem test_decode_stuff :
    decode 0b00000000_00000001_00000001_0000_1_010 = .ok (.stuff { dsel := true, n := 1, dlen := 1 }) := by decide
theorem test_decode_unstuff :
    decode 0b00000000_10000000_00000101_0000_0_011 = .ok (.unstuff { dsel := false, n := 5, dlen := 128 }) := by decide
theorem test_decode_encode_frame :
    decode 0b00000000_00000100_00000011_0000_1_100 = .ok (.encodeFrame { dsel := true, n := 3, dlen := 4 }) := by decide
theorem test_decode_decode_frame :
    decode 0b00000000_00000101_00000001_0000_1_101 = .ok (.decodeFrame { dsel := true, n := 1, dlen := 5 }) := by decide
/-- 95_test_vectors.md section 5, the refused words. -/
theorem test_decode_reserved :
    decode 0x00000006 = .error .reservedOp ∧ decode 0x00000007 = .error .reservedOp ∧
    decode 0x00000014 = .error .reservedBits ∧ decode 0x01000304 = .error .reservedBits ∧
    decode 0x00000080 = .error .reservedBits ∧ decode 0x80000000 = .error .reservedBits := by decide
theorem test_encode_r98 :
    encode (.encodeFrame { dsel := true, n := 3, dlen := 4 }) = 0x0004030C ∧
    encode (.encodeFrame { dsel := false, n := 3, dlen := 0 }) = 0x00000304 := by decide
theorem test_decodeTableWord :
    decodeTableWord 32 0x00000305 = some (.decodeFrame (plain 3)) ∧ decodeTableWord 32 7 = none := by decide
/-- `withFetchWord` makes the very next step perform the word. -/
theorem test_withFetchWord :
    fetchCommand (State.reset.withFetchWord 32 0x00000304) = 0x00000304 ∧
    response (step (State.reset.withFetchWord 32 0x00000304)) = some (2, some [], some []) := by decide

/-! ## Commands: expected values from 95_test_vectors.md -/

/-- V1, corrected (90_conflicts.md C1). -/
theorem test_generate_crc_v1 :
    runLine { op := .generate_crc, input := ['1','1','0','1','0','1'], n := none, d := none } =
      some (0, some [true, false, true], some []) := by decide
/-- Program 4, line 1. -/
theorem test_generate_crc_explicit :
    runLine { op := .generate_crc, input := ['1','0','1','0'], n := none, d := some ['1','0','0','1','1'] } =
      some (0, some [true, true, false, true], some []) := by decide
/-- Program 2, lines 5 and 6. -/
theorem test_verify_crc_printed_and_corrected :
    runLine { op := .verify_crc, input := ['1','1','0','1','0','1','0','0','1'], n := none, d := none } =
      some (0, some [], some []) ∧
    runLine { op := .verify_crc, input := ['1','1','0','1','0','1','1','0','1'], n := none, d := none } =
      some (4, some [], some []) := by decide
/-- Section 3: sequences shorter than the divisor. -/
theorem test_verify_crc_short :
    runLine { op := .verify_crc, input := ['0','0'], n := none, d := none } = some (4, some [], some []) ∧
    runLine { op := .verify_crc, input := ['0','0','1'], n := none, d := none } = some (0, some [], some []) := by decide
/-- V2. -/
theorem test_stuff_v2 :
    runLine { op := .stuff, input := ['1','1','1','1','1','0'], n := some 5, d := none } =
      some (0, some [true, true, true, true, true, false, false], some []) := by decide
/-- Section 5: the divisor fields are ignored, `CMDW = 0x0001010A`. -/
theorem test_stuff_ignores_divisor :
    response (step { presenting [1, 1] 0 with cmdw := 0x0001010A }) =
      some (0, some [true, false, true, false], some []) := by decide
/-- V3. -/
theorem test_unstuff_v3 :
    runLine { op := .unstuff, input := ['1','1','1','1','1','0','0'], n := some 5, d := none } =
      some (0, some [true, true, true, true, true, false], some []) := by decide
/-- Section 4: a run longer than `N` keeps its 0, a marker at the end goes. -/
theorem test_unstuff_long_run :
    runLine { op := .unstuff, input := ['1','1','1','0'], n := some 2, d := none } =
      some (0, some [true, true, true, false], some []) ∧
    runLine { op := .unstuff, input := ['1','0'], n := some 1, d := none } = some (0, some [true], some []) := by decide
/-- Program 1, line 3: a run across message and remainder. -/
theorem test_encode_frame_program1 :
    runLine { op := .encode_frame, input := ['1','1','1','1'], n := some 3, d := none } =
      some (0, some [true, true, true, false, true, true, true, false, true],
        some [true, true, true, true, true, true, true]) := by decide
/-- Program 3, lines 1 to 3: each kind, and the priority. -/
theorem test_encode_frame_rejections :
    runLine { op := .encode_frame, input := [], n := some 0, d := none } = some (2, some [], some []) ∧
    runLine { op := .encode_frame, input := ['1','0','x','1'], n := some 3, d := none } = some (1, some [], some []) ∧
    runLine { op := .encode_frame, input := ['1','0','1','1'], n := some 0, d := none } = some (3, some [], some []) :=
  ⟨by decide, by decide, by decide⟩
/-- Program 2, line 3: a damaged frame changes the length of codeword'. -/
theorem test_decode_frame_program2 :
    runLine { op := .decode_frame, input := ['1','1','0','0','1','1','1','0','1'], n := some 3, d := none } =
      some (0, some [true, true, false, false, true],
        some [true, true, false, false, true, true, true, true]) := by decide
/-- Section 5: the split follows the divisor; a short codeword'. -/
theorem test_decode_frame_split :
    runLine { op := .decode_frame, input := ['1','1','0','1'], n := some 3, d := some ['1','1'] } =
      some (0, some [true, true, false], some [true, true, false, true]) ∧
    runLine { op := .decode_frame, input := ['0','0','0'], n := some 3, d := none } =
      some (4, some [], some [false, false, false]) := by decide
/-- Log 11: a `d` too long for `DIV` spells a command that R88 refuses. (One too long for `DLEN` spells none:
`command_of_long_divisor`.) -/
theorem test_divisor_longer_than_div :
    refusal (runHost (Command.actions
      { instr := .generateCrc { dsel := true, n := 0, dlen := 65 }, div := 0xD, input := [1] }) State.reset) =
        some .illFormedDivisor := by decide
/-- Section 5, the refused divisors: leading symbol 0, length 1, a bit above `DLEN`. -/
theorem test_refused_divisors :
    refusal (step { presenting [1] 0x5 with cmdw := 0x00040008 }) = some .illFormedDivisor ∧
    refusal (step { presenting [1] 0x1 with cmdw := 0x00010008 }) = some .illFormedDivisor ∧
    refusal (step { presenting [1] 0xD with cmdw := 0x00030008 }) = some .illFormedDivisor := by decide

/-! ## The finer step (70_reset_and_hazards.md R258) -/

/-- The worked trace of 40_crc.md R115, `encode_frame` on 110101 by 1101, with the engine at `W` and `I`. -/
def tracing (w : Bits) (i : Nat) : Work :=
  { d := [true, true, false, true], n := 3, input := [true, true, false, true, false, true], out := [], cw := [],
    phase := .encodeGenerate { w := w, i := i } }

/-- R115: the windows at 0 and at 5 are XORed, the one at 1 is not; then `CW` is 110101101 and the stuffer starts. -/
theorem test_inner_division_trace :
    workStep (tracing [true, true, false, true, false, true, false, false, false] 0) =
      .running (tracing [false, false, false, false, false, true, false, false, false] 1) ∧
    workStep (tracing [false, false, false, false, false, true, false, false, false] 1) =
      .running (tracing [false, false, false, false, false, true, false, false, false] 2) ∧
    workStep (tracing [false, false, false, false, false, true, false, false, false] 5) =
      .running (tracing [false, false, false, false, false, false, true, false, true] 6) ∧
    workStep (tracing [false, false, false, false, false, false, true, false, true] 6) =
      .running { tracing [] 0 with
        cw := [true, true, false, true, false, true, true, false, true],
        phase := .encodeStuff { i := 0, cnt := 0, out := [] } } := by decide
/-- 41_stuffing.md R142 (d) and R153 (d): one marker after a 1, and one marker skipped, with `N = 1`. -/
theorem test_inner_marker :
    stuffNext [true, true] 1 { i := 0, cnt := 0, out := [] } = some { i := 1, cnt := 0, out := [true, false] } ∧
    unstuffNext [true, false, true] 1 { i := 0, cnt := 0, out := [] } = some { i := 2, cnt := 0, out := [true] } ∧
    unstuffNext [true, false] 1 { i := 2, cnt := 0, out := [true] } = none := by decide
/-- 42_pipeline.md R180: codeword' 000 goes to `CW`, the empty message' to `OUT`, and the verifier starts on it. -/
theorem test_inner_decode_hands_on :
    workStep { d := [true, true, false, true], n := 3, input := [false, false, false], out := [], cw := [],
               phase := .decodeUnstuff { i := 3, cnt := 0, out := [false, false, false] } } =
      .running { d := [true, true, false, true], n := 3, input := [false, false, false], out := [],
                 cw := [false, false, false], phase := .decodeVerify { w := [false, false, false], i := 0 } } := by decide
/-- 60_exceptions.md R210: a rejection comes at step (2) and ends the command. -/
theorem test_inner_rejection :
    innerRun 2 (issueCommand State.reset) = .next { state := { State.reset with status := 2 }, stage := .ended } := by
  rfl

/-! ## Witnesses: states and operands that meet the hypotheses of each statement -/

theorem test_witness_EncodeOfDecodeIsTheWord : decode 0x00000405 = .ok (.decodeFrame (plain 4)) := by decide
theorem test_witness_StepPerformsTheDecodedCommand :
    decode (presenting [1] 0).cmdw = .ok (.generateCrc (plain 0)) := by decide
theorem test_witness_UnusedOpcodesAreRefused :
    ({ presenting [1] 0 with cmdw := 6 } : State).cmdw &&& 7 = 6 ∧
    ({ presenting [1] 0 with cmdw := 0xFFFFFFFF } : State).cmdw &&& 7 = 7 := by decide
theorem test_witness_IllegalCommandsAreRefused_bits :
    ({ presenting [1] 0 with cmdw := 0x10 } : State).cmdw &&& 0xFF0000F0 ≠ 0 ∧
    ({ presenting [1] 0 with cmdw := 0x80000002 } : State).cmdw &&& 0xFF0000F0 ≠ 0 := by decide
theorem test_witness_IllegalCommandsAreRefused_divisor :
    decode 0x00000008 = .ok (.generateCrc { dsel := true, n := 0, dlen := 0 }) ∧
    (¬ ∃ d, PresentsDivisor (.generateCrc { dsel := true, n := 0, dlen := 1 }) (presenting [1] 1) d) ∧
    (¬ ∃ d, PresentsDivisor (.decodeFrame { dsel := true, n := 1, dlen := 65 }) (presenting [1] 1) d) ∧
    (¬ ∃ d, PresentsDivisor (.verifyCrc { dsel := true, n := 1, dlen := 4 }) (presenting [1] 0x5) d) ∧
    (¬ ∃ d, PresentsDivisor (.encodeFrame { dsel := true, n := 1, dlen := 3 }) (presenting [1] 0xD) d) :=
  ⟨by decide, no_divisor (by decide), no_divisor (by decide), no_divisor (by decide), no_divisor (by decide)⟩
theorem test_witness_IllegalCommandsAreRefused_length :
    ({ State.reset with ilen := 1025 } : State).ilen.toNat > 1024 := by decide
theorem test_witness_UnwrittenInputIsRefused :
    (∃ d, PresentsDivisor (.verifyCrc (plain 0)) { State.reset with ilen := 1 } d) ∧
    ({ State.reset with ilen := 1 } : State).ilen.toNat ≤ 1024 ∧ ¬ InputWritten { State.reset with ilen := 1 } :=
  ⟨⟨[true, true, false, true], by decide⟩, by decide, fun h => absurd (h 0 (by decide)) (by decide)⟩
theorem test_witness_StepAnswersExactlyThePresentableCommands :
    ∃ i, decode (presenting [1] 0).cmdw = .ok i ∧ Presentable i (presenting [1] 0) :=
  ⟨.generateCrc (plain 0), by decide, ⟨[true, true, false, true], by decide⟩, by decide,
    fun k hk => by
      have h : k < 1 := hk
      rw [show k = 0 by omega]; decide⟩
theorem test_witness_EmptyInputIsRejected :
    (∃ d, PresentsDivisor (.encodeFrame (plain 0)) State.reset d) ∧ State.reset.ilen = 0 :=
  ⟨⟨[true, true, false, true], by decide⟩, rfl⟩
theorem test_witness_NonBinarySymbolIsRejected :
    (∃ d, PresentsDivisor (.decodeFrame (plain 0)) (presenting [1, 0, 2] 0) d) ∧
    PresentsSymbols (presenting [1, 0, 2] 0) [1, 0, 2] ∧ (∃ y ∈ ([1, 0, 2] : List Symbol), y.getLsbD 1 = true) ∧
    PresentsSymbols (presenting [3] 0) [3] ∧ (∃ y ∈ ([3] : List Symbol), y.getLsbD 1 = true) :=
  ⟨⟨[true, true, false, true], by decide⟩, by decide, by decide, by decide, by decide⟩
theorem test_witness_ZeroThresholdIsRejected :
    Instr.unstuff (plain 0) ∈ [Instr.stuff (plain 0), .unstuff (plain 0), .encodeFrame (plain 0), .decodeFrame (plain 0)] ∧
    (∃ d, PresentsDivisor (.decodeFrame (plain 0)) (presenting [1] 0) d) ∧ PresentsBits (presenting [1] 0) [true] ∧
    (plain 0).n = 0 ∧ ∃ t, exec (.generateCrc (plain 0)) (presenting [1] 0) = .next t :=
  ⟨by decide, ⟨[true, true, false, true], by decide⟩, by decide, rfl, _, rfl⟩
theorem test_witness_FrontEndDecidesTheErrorCode :
    (∃ d, PresentsDivisor (.stuff (plain 0)) (presenting [2] 0) d) ∧ PresentsSymbols (presenting [2] 0) [2] ∧
    PresentsSymbols (presenting [] 0) [] ∧ PresentsSymbols (presenting [0] 0) [0] :=
  ⟨⟨[], trivial⟩, by decide, by decide, by decide⟩
theorem test_witness_RejectionChangesOnlyTheResponse :
    ∃ t, exec (.stuff (plain 0)) (presenting [1] 0) = .next t ∧ t.err ≠ 0 := ⟨_, rfl, by decide⟩
/-- The explicit divisor at its least and its greatest length, and the default one. -/
theorem test_witness_SelectsDivisor :
    SelectsDivisor { dsel := true, n := 1, dlen := 2 } (presenting [1] 0b11) [true, true] ∧
    SelectsDivisor { dsel := true, n := 1, dlen := 64 } (presenting [1] 0x8000000000000000)
      (true :: List.replicate 63 false) ∧
    SelectsDivisor (plain 1) (presenting [1] 0x5) [true, true, false, true] := by decide
/-- The hypotheses of the six statements of what a command does, at the least input length and the least threshold;
`presenting_bits` gives every length up to 1024. -/
theorem test_witness_GenerateCrcWritesTheRemainder :
    SelectsDivisor (plain 0) (presenting [1] 0) [true, true, false, true] ∧ PresentsBits (presenting [1] 0) [true] := by
  decide
theorem test_witness_VerifyCrcWritesTheVerdict :
    SelectsDivisor { dsel := true, n := 0, dlen := 2 } (presenting [0] 3) [true, true] ∧
    PresentsBits (presenting [0] 3) [false] := by decide
theorem test_witness_StuffWritesTheStuffedSequence :
    PresentsBits (presenting [1, 1] 0) [true, true] ∧ (plain 1).n ≠ 0 := by decide
theorem test_witness_UnstuffWritesTheUnstuffedSequence :
    PresentsBits (presenting [1, 0] 0) [true, false] ∧ (plain 255).n ≠ 0 := by decide
theorem test_witness_EncodeFrameWritesFrameAndCodeword :
    SelectsDivisor (plain 1) (presenting [1] 0) [true, true, false, true] ∧
    PresentsBits (presenting [1] 0) [true] ∧ (plain 1).n ≠ 0 := by decide
theorem test_witness_DecodeFrameWritesMessageVerdictAndCodeword :
    SelectsDivisor { dsel := true, n := 3, dlen := 2 } (presenting [1, 1, 0, 1] 3) [true, true] ∧
    PresentsBits (presenting [1, 1, 0, 1] 3) [true, true, false, true] ∧ (3 : BitVec 8) ≠ 0 := by decide
theorem test_witness_full_length (v : BitVec 64) :
    PresentsBits (presenting ((List.replicate 1024 true).map symbolOf) v) (List.replicate 1024 true) :=
  presenting_bits _ v (List.ne_nil_of_length_pos (by rw [List.length_replicate]; decide))
    (by rw [List.length_replicate])
theorem test_witness_SplitPointFollowsTheDivisor :
    SelectsDivisor { dsel := true, n := 3, dlen := 2 } (presenting [1, 1, 0, 1] 3) [true, true] ∧
    PresentsBits (presenting [1, 1, 0, 1] 3) [true, true, false, true] ∧ (3 : BitVec 8) ≠ 0 ∧
    SelectsDivisor (plain 3) (presenting [1] 0) [true, true, false, true] := by decide
theorem test_witness_CrcMismatchIsReportedAsData :
    SelectsDivisor (plain 3) (presenting [1] 0) [true, true, false, true] ∧ PresentsBits (presenting [1] 0) [true] ∧
    verifyCrc [true] [true, true, false, true] = false ∧ (plain 3).n ≠ 0 ∧
    verifyCrc (unstuff [true] 3) [true, true, false, true] = false := by decide
/-- codeword' of exactly `L-1` symbols, and shorter. -/
theorem test_witness_ShortCodewordGivesAnEmptyMessage :
    PresentsBits (presenting [1, 0, 1] 0) [true, false, true] ∧
    (unstuff [true, false, true] 3).length = [true, true, false, true].length - 1 ∧
    PresentsBits (presenting [1, 0] 0) [true, false] ∧
    (unstuff [true, false] 1).length ≤ [true, true, false, true].length - 1 := by decide
theorem test_witness_ResponseIsAFunctionOfTheCommand :
    SameCommand (presenting [1, 0] 0) { presenting [1, 0] 0 with status := 7, ibuf := (presenting [1, 0, 3] 0).ibuf } ∧
    (∃ t, step (presenting [1] 0) = .next t) ∧
    ∃ t, hostAct (.writeIbuf 1023 2) (presenting [1] 0) = .next t := by
  refine ⟨⟨rfl, rfl, rfl, ?_⟩, ⟨_, rfl⟩, _, rfl⟩
  decide
theorem test_witness_UnusedFieldsHaveNoEffect :
    (plain 0).dsel = (plain 255).dsel ∧ (plain 0).dlen = (plain 255).dlen ∧
    (plain 5).n = ({ dsel := true, n := 5, dlen := 1 } : Fields).n := by decide
theorem test_witness_StatusHasOneOfFiveValues :
    (∃ t, step (presenting [1] 0) = .next t ∧ t.status = 0) ∧ (∃ t, step State.reset = .next t ∧ t.err ≠ 0) :=
  ⟨⟨_, rfl, by decide⟩, _, rfl, by decide⟩
theorem test_witness_OnlyAVerdictSetsValid :
    ∃ t, exec (.verifyCrc (plain 0)) (presenting [0] 0) = .next t ∧ t.valid = true := ⟨_, rfl, by decide⟩
theorem test_witness_NoBufferOverflows :
    (∃ t, step (presenting [1] 0) = .next t) ∧ DivisorWellFormed [true, false] := ⟨⟨_, rfl⟩, by decide⟩
/-- A state with output, at the last entry that has a value and the first that has none. -/
theorem test_witness_BufferReadsHaveAValueOnlyBelowTheLength :
    ∃ t, step (presenting [1] 0) = .next t ∧ t.Inv ∧ 2 < t.olen.toNat ∧ ¬ 3 < t.olen.toNat := ⟨_, rfl, by decide⟩
/-- The last index `IBUF` has and the first it has not; and a state that a write at the latter leaves refused. -/
theorem test_witness_HostWritesOnlyTheCommandState :
    (1023 : Nat) < 1024 ∧ (1024 : Nat) ≤ 1024 ∧ refusal (hostAct (.writeIbuf 1024 0) State.reset) = some .noSuchEntry := by
  decide
theorem test_witness_StepKeepsInv : (presenting [1] 0).Inv ∧ ∃ t, step (presenting [1] 0) = .next t := ⟨by decide, _, rfl⟩
theorem test_witness_ReachableStatesSatisfyInv : Reachable { State.reset with ilen := 1, ibuf := [(5, 2)] } :=
  ⟨[.writeIlen 1, .writeIbuf 5 2], rfl⟩
theorem test_witness_prepared_commands :
    ({ instr := .stuff (plain 1), div := 0, input := [] } : Command).input.length ≤ 1024 ∧
    ({ instr := .stuff (plain 1), div := 0, input := [1, 2] } : Command).input.length ≤ 1024 := by decide
theorem test_witness_PreparedCommandForgetsTheHistory :
    ∃ t, runHost ({ instr := .stuff (plain 1), div := 0, input := [1] } : Command).actions (presenting [3, 3] 9) = .next t :=
  ⟨_, rfl⟩
/-- The divisor hypotheses of the CRC statements, with a sequence at, below and above the divisor's length. -/
theorem test_witness_Div2LeavesTheRemainder :
    DivisorWellFormed [true, true, false, true] ∧ [true, true, false, true].length ≤ [true, false, true, false].length ∧
    [true].length < [true, true, false, true].length := by decide
theorem test_witness_GeneratedCodewordVerifies : [true] ≠ ([] : Bits) ∧ DivisorWellFormed [true, false] := by decide
theorem test_witness_DivisionIsLinear :
    DivisorWellFormed [true, true] ∧ [true, false, true].length = [false, true, true].length := by decide
/-- 40_crc.md R126: the undetected burst is a multiple of the divisor; and an error pattern shorter than it. -/
theorem test_witness_UndetectedErrorsAreTheMultiples :
    verifyCrc [true, true, false, true, false, true, true, false, true] [true, true, false, true] = true ∧
    IsMultiple [false, false, false, false, false, true, true, false, true] [true, true, false, true] ∧
    verifyCrc [false] [true, true] = true ∧ IsMultiple [false] [true, true] := by
  refine ⟨by decide, ?_, by decide, ?_⟩
  · rw [IsMultiple, if_neg (by decide)]
    exact ⟨[false, false, false, false, false, true], by decide, by decide⟩
  · rw [IsMultiple, if_pos (by decide)]; decide
theorem test_witness_SingleSymbolErrorsAreDetected :
    DivisorWellFormed [true, true, false, true] ∧ [true, true, false, true].getLast? = some true ∧
    verifyCrc [true, false, true, false, false, false, true] [true, true, false, true] = true ∧
    6 < [true, false, true, false, false, false, true].length := by decide
theorem test_witness_SerialFormComputesTheRemainder :
    DivisorWellFormed [true, true, false, true] ∧
    [true, true, false, true].length - 1 ≤ [true, true, true].length ∧
    [true, true].length < [true, true, false, true].length - 1 := by decide
theorem test_witness_VerdictIsAnAllZeroDivision :
    DivisorWellFormed [true, true, false, true] ∧ [false, false, false].length < [true, true, false, true].length := by decide
theorem test_witness_RemainderCornerCases : DivisorWellFormed [true, false] ∧ DivisorWellFormed [true, true] := by decide
theorem test_witness_StuffedSequenceHasNoLongRun : stuff (ones 3) 1 = [true, false, true, false, true, false] ∧ 1 ≤ 1 := by decide
/-- A run shorter than, exactly as long as, and longer than `N`. -/
theorem test_witness_UnstuffRemovesAMarkerOnlyAfterExactlyNOnes : 1 ≤ 2 ∧ 1 ≠ 2 ∧ 3 ≠ 2 ∧ unstuff (ones 2 ++ [false, false]) 2 = ones 2 ++ [false] := by
  decide
theorem test_witness_StuffAddsOneMarkerPerFullRun : stuff (ones 10) 5 = ones 5 ++ false :: (ones 5 ++ [false]) := by decide
theorem test_witness_UnstuffInvertsStuff : ones 3 ≠ [] ∧ 1 ≤ 1 := by decide
/-- A frame and the primitives' inputs that a state can present (42_pipeline.md R176, R181, R184). -/
theorem test_witness_primitives_and_round_trip :
    PresentsBits (presenting [1, 1, 1, 1] 0) (ones 4) ∧
    PresentsBits (presenting [1, 1, 1, 1, 1, 1, 1] 0) (ones 4 ++ generateCrc (ones 4) [true, true, false, true]) ∧
    PresentsBits (presenting [1, 1, 1, 0, 1, 1, 1, 0, 1] 0) (encodeFrame (ones 4) 3 [true, true, false, true]) ∧
    PresentsBits (presenting [1, 1, 1, 1, 1, 1, 1] 0) (unstuff (encodeFrame (ones 4) 3 [true, true, false, true]) 3) ∧
    SelectsDivisor (plain 3) (presenting [1, 1, 1, 1] 0) [true, true, false, true] ∧ (plain 3).n ≠ 0 := by decide
/-- A command that completes, one that is refused, and a point of a run before and after the end. -/
theorem test_witness_InnerStepsPerformTheCommand :
    (∃ t, step (presenting [1] 0) = .next t) ∧ (∃ r, step { State.reset with cmdw := 6 } = .refused r) ∧
    (∃ p, innerRun 1 (issueCommand State.reset) = .next p ∧ p.stage ≠ .ended) ∧
    (∃ p, innerRun 2 (issueCommand State.reset) = .next p ∧ p.stage = .ended) :=
  ⟨⟨_, rfl⟩, ⟨_, rfl⟩, ⟨_, rfl, by decide⟩, _, rfl, rfl⟩

end Sys2Proof.Tests
end

section
/-! SUPPORT. One step and the host's actions, each said once: what a step reads and writes, what an action leaves
alone, and where the writes that prepare a command lead. -/

namespace Sys2Proof.Machine

/-! ### A step -/

/-- A step on a word that decodes is the command's meaning (42_pipeline.md R170). -/
theorem step_of_decode_ok {s : State} {i : Instr} (h : decode s.cmdw = .ok i) : step s = exec i s := by
  simp only [step, fetchCommand, h]

/-- A step on any other word is refused (30_encoding.md R91, R92). -/
theorem step_of_decode_error {s : State} {e : DecodeError} (h : decode s.cmdw = .error e) :
    step s = .refused (refusalOf e) := by
  simp only [step, fetchCommand, h]

/-- A command with an empty input is rejected, if its divisor is well formed where it uses one (60_exceptions.md
R202). -/
theorem exec_of_empty_input {i : Instr} {s : State} {d : Bits} (hd : PresentsDivisor i s d)
    (hy : PresentsSymbols s []) : exec i s = .next (reject .emptyInput s) := by
  rw [exec_of_assembled (assemble_presented hd hy), frontEnd_empty _ _ rfl]

/-- Completion writes no part of the command state (10_state.md R31). -/
theorem complete_commandKept (r : Response) (s : State) : CommandKept s (complete r s) := ⟨rfl, rfl, rfl, rfl⟩

/-- A step writes no part of the command state (10_state.md R31): a rejection is a completion too. -/
theorem step_commandKept {s t : State} (h : step s = .next t) : CommandKept s t := by
  obtain ⟨i, -, hi⟩ := step_next h
  obtain ⟨o, k, -, -, rfl⟩ | ⟨o, b, -, -, rfl⟩ := exec_next hi
  · exact complete_commandKept _ s
  · exact complete_commandKept _ s

/-- The operands assembled depend only on `DIV`, `ILEN` and the input entries below it (10_state.md R31). -/
theorem assemble_congr (u : Uses) (f : Fields) {s t : State} (hdiv : s.div = t.div) (hilen : s.ilen = t.ilen)
    (hibuf : ∀ k < s.ilen.toNat, s.ibuf.read k = t.ibuf.read k) : assemble u f s = assemble u f t := by
  simp only [assemble, hdiv, assembleInput_congr hilen hibuf]

/-- What a step tells the host depends only on the command state (10_state.md R31). -/
theorem step_sameOutcome {s t : State} (h : SameCommand s t) : SameOutcome (step s) (step t) := by
  obtain ⟨hcmdw, hdiv, hilen, hibuf⟩ := h
  cases hd : decode t.cmdw with
  | error e =>
    rw [step_of_decode_error (hcmdw ▸ hd), step_of_decode_error hd]
    exact rfl
  | ok i =>
    rw [step_of_decode_ok (hcmdw ▸ hd), step_of_decode_ok hd, exec_eq_perform, exec_eq_perform]
    exact perform_sameOutcome _ _ (assemble_congr _ _ hdiv hilen hibuf)

/-! ### The host's actions -/

theorem hostWriteIbuf_of_lt {k : Nat} (y : Symbol) (s : State) (h : k < 1024) :
    hostWriteIbuf k y s = .next { s with ibuf := s.ibuf.write k y } := if_pos h

theorem hostWriteIbuf_of_le {k : Nat} (y : Symbol) (s : State) (h : 1024 ≤ k) :
    hostWriteIbuf k y s = .refused .noSuchEntry := if_neg (Nat.not_lt.2 h)

/-- A read that is answered changes nothing (20_memory.md R65). -/
theorem readBuffer_next {b : BufferName} {k : Nat} {s t : State} (h : hostAct (.readBuffer b k) s = .next t) :
    t = s := by
  by_cases hv : (hostReadBuffer b k s).isSome = true
  · rw [hostAct, if_pos hv] at h
    cases h
    rfl
  · rw [hostAct, if_neg hv] at h
    cases h

/-- The response is held under every host action but the issue and the reset (10_state.md R31). -/
theorem hostAct_sameResponse {a : HostAction} {s t : State} (hissue : a ≠ .issue) (hreset : a ≠ .reset)
    (h : hostAct a s = .next t) : SameResponse s t := by
  cases a with
  | issue => exact absurd rfl hissue
  | reset => exact absurd rfl hreset
  | readBuffer b k =>
    rw [readBuffer_next h]
    exact ⟨rfl, rfl, rfl, rfl, rfl⟩
  | writeIbuf k y =>
    rw [hostAct] at h
    by_cases hk : k < 1024
    · rw [hostWriteIbuf_of_lt y s hk] at h
      cases h
      exact ⟨rfl, rfl, rfl, rfl, rfl⟩
    · rw [hostWriteIbuf_of_le y s (Nat.not_lt.1 hk)] at h
      cases h
  | _ =>
    cases h
    exact ⟨rfl, rfl, rfl, rfl, rfl⟩

theorem runHost_cons_of_next {a : HostAction} {s t : State} (h : hostAct a s = .next t) (rest : List HostAction) :
    runHost (a :: rest) s = runHost rest t := by
  simp only [runHost, h]

theorem runHost_append_of_next {acts : List HostAction} {s t : State} (h : runHost acts s = .next t)
    (rest : List HostAction) : runHost (acts ++ rest) s = runHost rest t := by
  induction acts generalizing s with
  | nil =>
    cases h
    rfl
  | cons a acts ih =>
    cases ha : hostAct a s with
    | next u =>
      rw [runHost_cons_of_next ha] at h
      rw [List.cons_append, runHost_cons_of_next ha, ih h]
    | fault r => cases r
    | refused r =>
      simp only [runHost, ha] at h
      cases h

/-- Issuing is one step (00_scope.md R6). -/
theorem runHost_issue (s : State) : runHost [.issue] s = step s := by
  simp only [runHost, hostAct]
  cases step s <;> rfl

/-- Writing a sequence that fits from index `k` on puts it there, and changes neither an entry below `k` nor anything
outside `IBUF`. -/
theorem runHost_writeInput (ys : List Symbol) (k : Nat) (s : State) (h : k + ys.length ≤ 1024) :
    ∃ m : Memory Symbol, runHost (writeInput k ys) s = .next { s with ibuf := m } ∧
      (∀ j < k, m.read j = s.ibuf.read j) ∧ ∀ j < ys.length, m.read (k + j) = ys[j]? := by
  induction ys generalizing k s with
  | nil => exact ⟨s.ibuf, rfl, fun _ _ => rfl, fun j hj => absurd hj (Nat.not_lt_zero j)⟩
  | cons y ys ih =>
    rw [List.length_cons] at h
    have hwrite : hostAct (.writeIbuf k y) s = .next { s with ibuf := s.ibuf.write k y } :=
      hostWriteIbuf_of_lt y s (by omega)
    obtain ⟨m, hrun, hbelow, hat⟩ := ih (k + 1) { s with ibuf := s.ibuf.write k y } (by omega)
    refine ⟨m, by rw [writeInput, runHost_cons_of_next hwrite, hrun], fun j hj => ?_, fun j hj => ?_⟩
    · rw [hbelow j (by omega), Memory.read_write_ne _ _ (by omega)]
    · cases j with
      | zero => rw [Nat.add_zero, hbelow k (by omega), Memory.read_write_same, List.getElem?_cons_zero]
      | succ j =>
        rw [List.length_cons] at hj
        rw [← Nat.succ_add_eq_add_succ, hat j (by omega), List.getElem?_cons_succ]

/-- The writes before an issue replace the command state by the command's items, whatever stood there, and write
nothing else (70_reset_and_hazards.md R242). -/
theorem runHost_prepare (s : State) (c : Command) (h : c.input.length ≤ 1024) :
    ∃ m : Memory Symbol,
      runHost c.prepare s = .next { s with
        cmdw := encode c.instr, div := c.div, ilen := BitVec.ofNat 16 c.input.length, ibuf := m } ∧
      ∀ k < c.input.length, m.read k = c.input[k]? := by
  obtain ⟨m, hrun, -, hat⟩ := runHost_writeInput c.input 0
    { s with cmdw := encode c.instr, div := c.div, ilen := BitVec.ofNat 16 c.input.length } (by omega)
  exact ⟨m, hrun, fun k hk => by simpa using hat k hk⟩

/-- Preparing one command from any two states gives the same command state. -/
theorem runHost_prepare_sameCommand (s t : State) (c : Command) (h : c.input.length ≤ 1024) :
    ∃ s' t', runHost c.prepare s = .next s' ∧ runHost c.prepare t = .next t' ∧ SameCommand s' t' := by
  obtain ⟨m, hs, hm⟩ := runHost_prepare s c h
  obtain ⟨m', ht, hm'⟩ := runHost_prepare t c h
  refine ⟨_, _, hs, ht, rfl, rfl, rfl, fun k hk => ?_⟩
  have hlt : k < c.input.length := lt_of_lt_of_le hk ((BitVec.toNat_ofNat _ _).trans_le (Nat.mod_le _ _))
  exact (hm k hlt).trans (hm' k hlt).symm

/-! ### The reset state -/

/-- Nothing in the reset state has a value for the host (10_state.md R45): the buffers list no entry. -/
theorem hostReadBuffer_reset (b : BufferName) (k : Nat) : hostReadBuffer b k State.reset = none := by
  cases b <;> simp [hostReadBuffer, State.reset]

end Sys2Proof.Machine
end

section
/-! PROOFS. The statements of 10_state.md: what the response depends on, and the reset. -/

namespace Sys2Proof.Proofs

open Sys2Proof.Machine

/-- Settles O26: the step and the host's actions each by their one lemma. -/
theorem responseIsAFunctionOfTheCommand : Obligations.ResponseIsAFunctionOfTheCommand :=
  ⟨fun _ _ => step_commandKept, fun _ _ => step_sameOutcome, fun _ _ _ => hostAct_sameResponse⟩

/-- Settles O40: the host's writes leave the same command state from `s` as from reset, and the response is a function
of it. -/
theorem preparedCommandForgetsTheHistory : Obligations.PreparedCommandForgetsTheHistory := by
  intro s c h
  obtain ⟨s', t', hs, ht, hsame⟩ := runHost_prepare_sameCommand s State.reset c h
  rw [Command.actions, runHost_append_of_next hs, runHost_append_of_next ht, runHost_issue, runHost_issue]
  exact step_sameOutcome hsame

/-- Settles O32: register by register and buffer by buffer. -/
theorem resetClearsEveryRegister : Obligations.ResetClearsEveryRegister := by
  refine ⟨fun r => ?_, rfl, rfl, hostReadBuffer_reset, fun k => ?_, fun _ => rfl⟩
  · cases r <;> rfl
  · exact ⟨Memory.read_nil k, Memory.read_nil k, Memory.read_nil k⟩

/-- Settles O33: the reset state presents the default divisor and the empty input. -/
theorem commandOfTheResetStateIsRejected : Obligations.CommandOfTheResetStateIsRejected := by
  have hdecode : decode State.reset.cmdw = .ok (.generateCrc { dsel := false, n := 0, dlen := 0 }) := by decide
  have hdivisor : PresentsDivisor (.generateCrc { dsel := false, n := 0, dlen := 0 }) State.reset
      [true, true, false, true] := rfl
  have hinput : PresentsSymbols State.reset [] := by decide
  refine ⟨hdecode, ?_⟩
  calc step State.reset
      _ = .next (reject .emptyInput State.reset) := by
        rw [step_of_decode_ok hdecode, exec_of_empty_input hdivisor hinput]
      _ = .next { State.reset with status := 2 } := rfl

end Sys2Proof.Proofs
end

section
/-! SUPPORT. Buffers and their lengths: where an entry has a value, how long each unit's result is, and that a
completion leaves the output buffers as their length registers say; and the front end's threshold check. -/

namespace Sys2Proof.Machine

/-! ### Where a buffer has a value -/

/-- An entry has a value exactly when it is listed. -/
theorem Memory.read_isSome_iff {α : Type} (m : Memory α) (k : Nat) :
    (m.read k).isSome = true ↔ k ∈ m.map Prod.fst := by
  induction m with
  | nil => simp
  | cons e m ih =>
    obtain ⟨j, v⟩ := e
    rw [Memory.read_cons, List.map_cons, List.mem_cons, ← ih]
    by_cases hj : j = k
    · simp [hj]
    · simp [hj, Ne.symm hj]

/-- A buffer of length `len` has a value at exactly the entries below it (20_memory.md R64). -/
theorem Memory.Holds.read_isSome_iff {m : Memory Bool} {len : Nat} (h : m.Holds len) (k : Nat) :
    (m.read k).isSome = true ↔ k < len := by
  rw [Memory.read_isSome_iff, h, List.mem_range]

/-- A guarded read has a value exactly when the guard holds and the entry has one. -/
theorem isSome_ite_none {α : Type} (p : Prop) [Decidable p] (o : Option α) :
    (if p then o else none).isSome = true ↔ p ∧ o.isSome = true := by
  by_cases hp : p <;> simp [hp]

/-! ### The lengths of the units' results -/

theorem length_stuffFrom_le (s : Bits) (n cnt : Nat) : (stuffFrom n cnt s).length ≤ 2 * s.length := by
  induction s generalizing cnt with
  | nil => simp
  | cons b s ih =>
    have hzero := ih 0
    have hnext := ih (cnt + 1)
    cases b with
    | false =>
      simp only [stuffFrom_false, List.length_cons]
      omega
    | true =>
      rw [stuffFrom_true]
      split <;> simp only [List.length_cons] <;> omega

/-- Each symbol brings at most one marker (20_memory.md R66 (a)). -/
theorem length_stuff_le (s : Bits) (n : Nat) : (stuff s n).length ≤ 2 * s.length := length_stuffFrom_le s n 0

theorem length_unstuffFrom_le (n cnt : Nat) (s : Bits) : (unstuffFrom n cnt s).length ≤ s.length := by
  fun_induction unstuffFrom n cnt s <;> simp only [List.length_nil, List.length_cons] at * <;> omega

/-- The unstuffer only removes symbols (20_memory.md R66 (b)). -/
theorem length_unstuff_le (s : Bits) (n : Nat) : (unstuff s n).length ≤ s.length := length_unstuffFrom_le n 0 s

@[simp] theorem length_div2 (w d : Bits) : (div2 w d).length = w.length := length_foldl_divPosition d _ w

@[simp] theorem length_generateCrc (m d : Bits) : (generateCrc m d).length = d.length - 1 := by
  simp [generateCrc]

@[simp] theorem length_codeword (m d : Bits) : (codeword m d).length = m.length + (d.length - 1) := by
  simp [codeword]

theorem length_messagePart_le (cw d : Bits) : (messagePart cw d).length ≤ cw.length :=
  List.length_take_le' _ _

/-! ### The output buffers after a command -/

/-- A divisor in use fits in `DIV` (30_encoding.md R88). -/
theorem SelectsDivisor.length_le {f : Fields} {s : State} {d : Bits} (h : SelectsDivisor f s d) :
    d.length ≤ 64 := by
  unfold SelectsDivisor at h
  split at h
  · exact h.2.1
  · simp [h]

/-- The operands of an assembled command are within the capacities of 00_scope.md R8. -/
theorem assemble_lengths {u : Uses} {f : Fields} {s : State} {o : Operands} (h : assemble u f s = .ok o) :
    o.divisor.length ≤ 64 ∧ o.input.length ≤ 1024 := by
  obtain ⟨hd, -, -, hinput, -⟩ := (assemble_eq_ok_iff u f s o).1 h
  refine ⟨?_, hinput⟩
  cases hu : u.divisor with
  | true => exact SelectsDivisor.length_le (by simpa [hu] using hd)
  | false => simp [show o.divisor = [] by simpa [hu] using hd]

/-- On operands within their capacities every unit's results are within the capacities of the output buffers
(20_memory.md R66). -/
theorem unitOf_lengths (i : Instr) {d b : Bits} (n : Nat) (hd : d.length ≤ 64) (hb : b.length ≤ 1024) :
    (unitOf i d n b).out.length ≤ Config.outMax ∧ (unitOf i d n b).cw.length ≤ Config.cwMax := by
  have hstuff := length_stuff_le b n
  have hframe := length_stuff_le (codeword b d) n
  have hunstuff := length_unstuff_le b n
  have hmessage := length_messagePart_le (unstuff b n) d
  rw [length_codeword] at hframe
  cases i <;>
    simp only [unitOf, encodeFrame, length_generateCrc, length_codeword, List.length_nil, Config.outMax,
      Config.cwMax, Config.lenMax, Config.dlenMax] <;>
    omega

/-- A length within the capacity of `OBUF` is what the length register shows (log 8). -/
theorem toNat_lengthWord {b : Bits} (h : b.length ≤ Config.outMax) : (lengthWord b).toNat = b.length := by
  simp only [Config.outMax, Config.lenMax, Config.dlenMax] at h
  rw [lengthWord, BitVec.toNat_ofNat, Nat.mod_eq_of_lt (by omega)]

/-- A completion with results that fit leaves the output buffers as their length registers say. -/
theorem complete_outputSound {r : Response} (s : State) (hout : r.out.length ≤ Config.outMax)
    (hcw : r.cw.length ≤ Config.cwMax) : (complete r s).OutputSound := by
  have hcw' : r.cw.length ≤ Config.outMax := hcw.trans (by decide)
  rw [State.OutputSound, complete_olen, complete_cwlen, toNat_lengthWord hout, toNat_lengthWord hcw']
  exact ⟨Memory.holds_ofSeq r.out, hout, Memory.holds_ofSeq r.cw, hcw⟩

/-- Whatever the state before, a command leaves the output buffers as their length registers say (20_memory.md R66). -/
theorem exec_outputSound {i : Instr} {s t : State} (h : exec i s = .next t) : t.OutputSound := by
  obtain ⟨o, k, -, -, rfl⟩ | ⟨o, b, ha, hf, rfl⟩ := exec_next h
  · exact complete_outputSound s (Nat.zero_le _) (Nat.zero_le _)
  · obtain ⟨hd, hinput⟩ := assemble_lengths ha
    obtain ⟨-, -, -, rfl⟩ := frontEnd_eq_ok hf
    obtain ⟨hout, hcw⟩ := unitOf_lengths i o.n hd ((List.length_map bitOf).trans_le hinput)
    exact complete_outputSound s hout hcw

/-! ### The threshold check -/

/-- An operation that uses `N` is rejected on a binary input with `N = 0` (60_exceptions.md R203). -/
theorem exec_of_zero_threshold {i : Instr} {s : State} {d b : Bits} (hd : PresentsDivisor i s d)
    (hb : PresentsBits s b) (hu : usesThreshold i = true) (hn : (fieldsOfInstr i).n = 0) :
    exec i s = .next (reject .invalidThreshold s) := by
  rw [exec_of_assembled (assemble_presented hd hb.2),
    frontEnd_threshold _ _ (by simpa using hb.1) (all_isBit_symbolOf b) hu (by simp [hn])]

/-- An operation that does not use `N` is not rejected for it (42_pipeline.md R172). -/
theorem frontEnd_ne_invalidThreshold {u : Uses} (o : Operands) (hu : u.threshold = false) :
    frontEnd u o ≠ .error .invalidThreshold := by
  by_cases hempty : o.input = []
  · simp [frontEnd_empty u o hempty]
  · cases hbits : o.input.all isBit with
    | false => simp [frontEnd_alphabet u o hempty hbits]
    | true => simp [frontEnd_ok u o hempty hbits (by simp [hu])]

theorem code_eq_three_iff (k : ErrorKind) : k.code = 3 ↔ k = .invalidThreshold := by
  cases k <;> decide

/-- An operation that does not use `N` never ends with `ERR = 3`. -/
theorem exec_err_ne_three {i : Instr} {s t : State} (hu : usesThreshold i = false) (h : exec i s = .next t) :
    t.err ≠ 3 := by
  obtain ⟨o, k, -, hf, rfl⟩ | ⟨o, b, -, -, rfl⟩ := exec_next h
  · rw [reject_err, Ne, code_eq_three_iff]
    rintro rfl
    exact frontEnd_ne_invalidThreshold o hu hf
  · rw [complete_err, unitOf_err]
    decide

end Sys2Proof.Machine
end

section
/-! PROOFS. The statements of 20_memory.md, and the threshold's of 60_exceptions.md R203: the capacities, reads below the
length, and the rejection of `N = 0`. -/

namespace Sys2Proof.Proofs

open Sys2Proof.Machine

/-- Settles O14: the four operations reach the threshold check, the CRC operations pass it. -/
theorem zeroThresholdIsRejected : Obligations.ZeroThresholdIsRejected := by
  intro f s
  refine ⟨fun i hi b ⟨d, hd⟩ hb hn => ?_, ?_⟩
  · have huse : usesThreshold i = true ∧ fieldsOfInstr i = f := by
      fin_cases hi <;> exact ⟨rfl, rfl⟩
    obtain ⟨hu, hfields⟩ := huse
    exact exec_of_zero_threshold hd hb hu (by rw [hfields, hn])
  · rintro t (h | h)
    · exact exec_err_ne_three rfl h
    · exact exec_err_ne_three rfl h

/-- Settles O31: the commands by the bounds on their units, and the bounds themselves. -/
theorem noBufferOverflows : Obligations.NoBufferOverflows := by
  refine ⟨fun s t h => ?_, fun s n => ⟨length_stuff_le s n, length_unstuff_le s n⟩, fun m d hd => ⟨?_, ?_⟩⟩
  · obtain ⟨i, -, hi⟩ := step_next h
    exact exec_outputSound hi
  · exact length_generateCrc m d
  · have hlen : 2 ≤ d.length := hd.1
    rw [length_codeword]
    omega

/-- Settles O34: below the length register an output buffer has a value at every entry, so the guard alone decides. -/
theorem bufferReadsHaveAValueOnlyBelowTheLength : Obligations.BufferReadsHaveAValueOnlyBelowTheLength := by
  rintro s k ⟨-, ⟨hobuf, -, hcwbuf, -⟩, -⟩
  refine ⟨?_, ?_, isSome_ite_none _ _, fun _ => rfl⟩
  · rw [hostReadBuffer, isSome_ite_none, Option.isSome_map, hobuf.read_isSome_iff, and_self_iff]
  · rw [hostReadBuffer, isSome_ite_none, Option.isSome_map, hcwbuf.read_isSome_iff, and_self_iff]

end Sys2Proof.Proofs
end

section
/-! SUPPORT. The command word as a number, the decoder's inverse reading (30_encoding.md R81, R90), and the operands a
command assembles when a field it does not use changes (R83, R89). -/

namespace Sys2Proof

/-! ### The command word -/

/-- Appending shifts the upper part past the lower, as numbers. -/
theorem toNat_append_eq_add {m n : Nat} (x : BitVec m) (y : BitVec n) :
    (x ++ y).toNat = x.toNat * 2 ^ n + y.toNat := by
  rw [BitVec.toNat_append, ← Nat.shiftLeft_add_eq_or_of_lt y.isLt, Nat.shiftLeft_eq]

/-- The command word as a number (30_encoding.md R81). -/
theorem toNat_commandWord (op : BitVec 3) (f : Fields) :
    (commandWord op f).toNat = op.toNat + (8 * f.dsel.toNat + 256 * f.n.toNat + 65536 * f.dlen.toNat) := by
  simp only [commandWord, toNat_append_eq_add, BitVec.toNat_ofBool, BitVec.toNat_ofNat]
  omega

/-! ### The decoder -/

/-- `OP` of a command (30_encoding.md R82). -/
def opOf : Instr → BitVec 3
  | .generateCrc _ => 0
  | .verifyCrc _ => 1
  | .stuff _ => 2
  | .unstuff _ => 3
  | .encodeFrame _ => 4
  | .decodeFrame _ => 5

/-- The rows of 30_encoding.md R90, used and reserved. -/
theorem op_cases (op : BitVec 3) :
    op = 0 ∨ op = 1 ∨ op = 2 ∨ op = 3 ∨ op = 4 ∨ op = 5 ∨ op = 6 ∨ op = 7 := by
  revert op; decide

/-- The mask `7` leaves `OP` (30_encoding.md R90). -/
theorem and_seven_eq (w : Word) : w &&& 7 = (opField w).setWidth 32 := by
  apply BitVec.eq_of_getLsbD_eq
  intro k hk
  have hmask : ∀ k < 32, (7 : Word).getLsbD k = decide (k < 3) := by decide
  rw [BitVec.getLsbD_and, hmask k hk]
  by_cases h3 : k < 3 <;> simp [opField, h3, hk]

theorem setWidth_op_injective (p q : BitVec 3) : p.setWidth 32 = q.setWidth 32 ↔ p = q := by
  revert p q; decide

theorem and_seven_eq_iff (w : Word) (op : BitVec 3) : w &&& 7 = op.setWidth 32 ↔ opField w = op := by
  rw [and_seven_eq, setWidth_op_injective]

/-- A word matches a row of 30_encoding.md R90 exactly when its reserved bits are zero and its `OP` is the row's. -/
theorem and_rowMask_eq_iff (w : Word) (op : BitVec 3) :
    w &&& 0xFF0000F7 = op.setWidth 32 ↔ reservedZero w = true ∧ opField w = op := by
  rw [reservedZero_iff, ← and_seven_eq_iff]
  constructor
  · intro h
    have hreserved : ∀ op : BitVec 3, op.setWidth 32 &&& 0xFF0000F0#32 = 0#32 := by decide
    have hop : ∀ op : BitVec 3, op.setWidth 32 &&& (7 : Word) = op.setWidth 32 := by decide
    constructor
    · rw [← hreserved op, ← h, BitVec.and_assoc]; rfl
    · rw [← hop op, ← h, BitVec.and_assoc]; rfl
  · rintro ⟨hreserved, hop⟩
    calc w &&& 0xFF0000F7
        = w &&& (0xFF0000F0#32 ||| 7) := rfl
      _ = op.setWidth 32 := by rw [BitVec.and_or_distrib_left, hreserved, hop, BitVec.zero_or]

/-- The decoder's one answer for each word: which words spell a command, and which one (30_encoding.md R90). -/
theorem decode_eq_ok_iff (w : Word) (i : Instr) :
    decode w = .ok i ↔ reservedZero w = true ∧ opField w = opOf i ∧ Machine.fieldsOfInstr i = fieldsOf w := by
  cases hr : reservedZero w with
  | false => simp [decode_of_reserved w hr]
  | true =>
    rw [decode_of_op w hr]
    constructor
    · intro h
      rcases op_cases (opField w) with hop | hop | hop | hop | hop | hop | hop | hop <;> rw [hop] at h ⊢ <;>
        cases h <;> exact ⟨rfl, rfl, rfl⟩
    · rintro ⟨-, hop, hf⟩
      rw [hop, ← hf]
      cases i <;> rfl

/-- A row of the opcode map by match and mask (30_encoding.md R90). -/
theorem and_rowMask_eq_iff_decode {w : Word} (i : Instr) (hf : Machine.fieldsOfInstr i = fieldsOf w) :
    w &&& 0xFF0000F7 = (opOf i).setWidth 32 ↔ decode w = .ok i := by
  rw [and_rowMask_eq_iff, decode_eq_ok_iff]
  simp only [hf, and_true]

/-- The reserved bits are the decoder's first test (30_encoding.md R90, R92). -/
theorem decode_eq_reservedBits_iff (w : Word) :
    decode w = .error .reservedBits ↔ w &&& 0xFF0000F0#32 ≠ 0#32 := by
  rw [Ne, ← reservedZero_iff]
  cases hr : reservedZero w with
  | false => simp [decode_of_reserved w hr]
  | true =>
    rw [decode_of_op w hr]
    split <;> simp

/-- The two values of `OP` that spell no operation (30_encoding.md R91). -/
theorem decode_eq_reservedOp_iff (w : Word) :
    decode w = .error .reservedOp ↔ reservedZero w = true ∧ (opField w = 6 ∨ opField w = 7) := by
  cases hr : reservedZero w with
  | false => simp [decode_of_reserved w hr]
  | true =>
    rw [decode_of_op w hr]
    rcases op_cases (opField w) with h | h | h | h | h | h | h | h <;> simp [h]

end Sys2Proof

namespace Sys2Proof.Machine

/-! ### What is refused -/

/-- A command whose operands do not assemble is refused (42_pipeline.md R170 (1)). -/
theorem exec_refused_of_not_assembled {i : Instr} {s : State}
    (h : ∀ o, assemble (usesOf i) (fieldsOfInstr i) s ≠ .ok o) : ∃ r, exec i s = .refused r := by
  rw [exec_eq_perform]
  obtain ⟨r, -, hr⟩ | ⟨o, -, ho, -⟩ | ⟨o, -, ho, -⟩ := perform_cases (usesOf i) (fieldsOfInstr i) (unitOf i) s
  · exact ⟨r, hr⟩
  · exact absurd ho (h o)
  · exact absurd ho (h o)

/-- Operands that assemble are presented by the state: a divisor where one is used, and the input (30_encoding.md R87). -/
theorem presents_of_assembled {i : Instr} {s : State} {o : Operands}
    (h : assemble (usesOf i) (fieldsOfInstr i) s = .ok o) :
    PresentsDivisor i s o.divisor ∧ PresentsSymbols s o.input := by
  obtain ⟨hd, -, hy⟩ := (assemble_eq_ok_iff _ _ s o).1 h
  refine ⟨?_, hy⟩
  cases i with
  | stuff f => trivial
  | unstuff f => trivial
  | _ => exact hd

/-- A used divisor that is not well formed is refused (30_encoding.md R92). -/
theorem exec_refused_of_no_divisor {i : Instr} {s : State} (h : ¬ ∃ d, PresentsDivisor i s d) :
    ∃ r, exec i s = .refused r :=
  exec_refused_of_not_assembled fun o ho => h ⟨o.divisor, (presents_of_assembled ho).1⟩

/-- An input longer than `LEN_MAX` is refused (30_encoding.md R92). -/
theorem exec_refused_of_long_input (i : Instr) {s : State} (h : s.ilen.toNat > 1024) : ∃ r, exec i s = .refused r := by
  refine exec_refused_of_not_assembled fun o ho => ?_
  obtain ⟨hlen, hmax, -⟩ := (presents_of_assembled ho).2
  omega

/-- A step is refused if every command it may perform is. -/
theorem step_refused_of_exec {s : State} (h : ∀ i, decode s.cmdw = .ok i → ∃ r, exec i s = .refused r) :
    ∃ r, step s = .refused r := by
  cases hd : decode s.cmdw with
  | error e => exact ⟨_, step_of_decode_error hd⟩
  | ok i =>
    rw [step_of_decode_ok hd]
    exact h i hd

/-! ### Fields an operation does not use -/

/-- The operands assembled depend on the fields only through `N` and, where a divisor is used, through the divisor
selected (30_encoding.md R89). -/
theorem assemble_eq_of_same_operands {u : Uses} {f g : Fields} {s t : State} (hn : f.n = g.n)
    (hd : u.divisor = true → selectDivisor f s.div = selectDivisor g t.div) (hilen : s.ilen = t.ilen)
    (hibuf : s.ibuf = t.ibuf) : assemble u f s = assemble u g t := by
  have hin : assembleInput s = assembleInput t := assembleInput_congr hilen fun k _ => by rw [hibuf]
  unfold assemble
  rw [hin, hn]
  cases hu : u.divisor with
  | false => rfl
  | true => simp only [if_true, hd hu]

/-- `DSEL`, `DLEN` and `DIV` have no effect on an operation that uses no divisor (30_encoding.md R89). -/
theorem perform_ignores_divisor {u : Uses} {f g : Fields} (unit : Bits → Nat → Bits → Response) (s : State)
    (v : BitVec 64) (hu : u.divisor = false) (hn : f.n = g.n) :
    SameOutcome (perform u f unit s) (perform u g unit { s with div := v }) :=
  perform_sameOutcome u unit (assemble_eq_of_same_operands hn (by simp [hu]) rfl rfl)

/-- The front end of an operation that does not use `N` looks at the input alone (42_pipeline.md R172). -/
theorem frontEnd_ignores_threshold {u : Uses} (d : Bits) (n m : Nat) (ys : List Symbol) (hu : u.threshold = false) :
    frontEnd u { divisor := d, n := n, input := ys } = frontEnd u { divisor := d, n := m, input := ys } := by
  simp [frontEnd, hu]

/-- `N` has no effect on an operation that does not use it (30_encoding.md R89). -/
theorem perform_ignores_threshold {u : Uses} {f g : Fields} {unit : Bits → Nat → Bits → Response} (s : State)
    (hu : u.threshold = false) (hunit : ∀ d n m b, unit d n b = unit d m b) (hdsel : f.dsel = g.dsel)
    (hdlen : f.dlen = g.dlen) : perform u f unit s = perform u g unit s := by
  have hd : selectDivisor f s.div = selectDivisor g s.div := by simp only [selectDivisor, hdsel, hdlen]
  unfold perform assemble
  rw [hd]
  cases (if u.divisor then selectDivisor g s.div else some []) with
  | none => rfl
  | some d =>
    cases assembleInput s with
    | error r => rfl
    | ok ys =>
      simp only [frontEnd_ignores_threshold d f.n.toNat g.n.toNat ys hu, hunit d f.n.toNat g.n.toNat]

/-- `DSEL = 0` selects the default divisor whatever `DLEN` and `DIV` hold (30_encoding.md R83). -/
theorem selectDivisor_default (n len : BitVec 8) (v : BitVec 64) :
    selectDivisor { dsel := false, n := n, dlen := len } v = some Config.defaultDivisor := rfl

/-- The explicit form of the default divisor (30_encoding.md R97 (a)); the selection does not read `N`. -/
theorem selectDivisor_explicit1101 (n : BitVec 8) :
    selectDivisor { dsel := true, n := n, dlen := 4 } 0xD = some Config.defaultDivisor := by
  change selectDivisor { dsel := true, n := 0, dlen := 4 } 0xD = some Config.defaultDivisor
  decide

/-- The default divisor and the explicit `1101` are the same operand of every command (30_encoding.md R83, R97 (a)). -/
theorem perform_default_sameOutcome_explicit (u : Uses) (unit : Bits → Nat → Bits → Response) (n len : BitVec 8)
    (s : State) (v : BitVec 64) :
    SameOutcome (perform u { dsel := false, n := n, dlen := len } unit { s with div := v })
      (perform u { dsel := true, n := n, dlen := 4 } unit { s with div := 0xD }) :=
  perform_sameOutcome u unit (assemble_eq_of_same_operands rfl
    (fun _ => (selectDivisor_default n len v).trans (selectDivisor_explicit1101 n).symm) rfl rfl)

/-! ### The status word -/

/-- A completion writes `STATUS` in the layout of 30_encoding.md R95. -/
theorem complete_status_eq (r : Response) (s : State) :
    (complete r s).status = statusWord (complete r s).err (complete r s).valid := by
  rw [complete_err, complete_valid, complete_status]

/-- A rejection leaves its code in `STATUS`, no verdict and no output (60_exceptions.md R210). -/
theorem reject_statusSound (k : ErrorKind) (s : State) : (reject k s).StatusSound := by
  refine ⟨?_, fun _ => ⟨reject_valid k s, rfl, rfl⟩⟩
  rw [reject_status]
  cases k <;> decide

/-- An accepted command leaves `ERR = 0`, and only the verdict in `STATUS` (30_encoding.md R95). -/
theorem complete_statusSound {r : Response} (s : State) (h : r.err = none) : (complete r s).StatusSound := by
  constructor
  · rw [complete_status, h]
    cases r.valid <;> decide
  · rw [complete_err, h]
    exact fun hne => absurd rfl hne

/-- Whatever the state before, a command leaves one of the five values in `STATUS` (30_encoding.md R95). -/
theorem exec_statusSound {i : Instr} {s t : State} (h : exec i s = .next t) : t.StatusSound := by
  obtain ⟨o, k, -, -, rfl⟩ | ⟨o, b, -, -, rfl⟩ := exec_next h
  · exact reject_statusSound k s
  · exact complete_statusSound s (unitOf_err i _ _ _)

/-- `STATUS` after a command is made of its two fields alone (30_encoding.md R95). -/
theorem exec_status_eq {i : Instr} {s t : State} (h : exec i s = .next t) : t.status = statusWord t.err t.valid := by
  obtain ⟨o, k, -, -, rfl⟩ | ⟨o, b, -, -, rfl⟩ := exec_next h
  · exact complete_status_eq _ s
  · exact complete_status_eq _ s

end Sys2Proof.Machine
end

section
/-! PROOFS. The statements of 30_encoding.md: the command word and its decoder, the refused commands, the fields not
used, the default divisor, and the status word. -/

namespace Sys2Proof.Proofs

open Sys2Proof.Machine

/-- Settles O4: each row by the masked comparison on the word's own fields, and the two reserved cases by theirs. -/
theorem decoderFollowsTheOpcodeMap : Obligations.DecoderFollowsTheOpcodeMap := by
  intro w
  refine ⟨and_rowMask_eq_iff_decode (.generateCrc (fieldsOf w)) rfl,
    and_rowMask_eq_iff_decode (.verifyCrc (fieldsOf w)) rfl, and_rowMask_eq_iff_decode (.stuff (fieldsOf w)) rfl,
    and_rowMask_eq_iff_decode (.unstuff (fieldsOf w)) rfl, and_rowMask_eq_iff_decode (.encodeFrame (fieldsOf w)) rfl,
    and_rowMask_eq_iff_decode (.decodeFrame (fieldsOf w)) rfl,
    (decode_eq_reservedBits_iff w).symm, ?_⟩
  rw [decode_eq_reservedOp_iff, reservedZero_iff, ← and_seven_eq_iff, ← and_seven_eq_iff]
  rfl

/-- Settles O8: the reserved bits stop the decoder, the other two causes the assembly of operands. -/
theorem illegalCommandsAreRefused : Obligations.IllegalCommandsAreRefused := by
  refine fun s => ⟨fun h => ?_, fun i hi h => ?_, fun h => ?_⟩
  · exact ⟨_, step_of_decode_error ((decode_eq_reservedBits_iff s.cmdw).2 h)⟩
  · rw [step_of_decode_ok hi]
    exact exec_refused_of_no_divisor h
  · exact step_refused_of_exec fun i _ => exec_refused_of_long_input i h

/-- Settles O27: every command is `perform` on its row of 30_encoding.md R89. -/
theorem unusedFieldsHaveNoEffect : Obligations.UnusedFieldsHaveNoEffect := by
  intro f g s v
  simp only [exec_eq_perform]
  refine ⟨fun hdsel hdlen => ⟨?_, ?_⟩, fun hn => ⟨?_, ?_⟩⟩
  · exact perform_ignores_threshold s rfl (fun _ _ _ _ => rfl) hdsel hdlen
  · exact perform_ignores_threshold s rfl (fun _ _ _ _ => rfl) hdsel hdlen
  · exact perform_ignores_divisor _ s v rfl hn
  · exact perform_ignores_divisor _ s v rfl hn

/-- Settles O28: both forms assemble the same operands, so no command tells them apart. -/
theorem defaultDivisorIsTheExplicit1101 : Obligations.DefaultDivisorIsTheExplicit1101 := by
  intro n len s v
  simp only [exec_eq_perform]
  refine ⟨?_, ?_, ?_, ?_⟩ <;> exact perform_default_sameOutcome_explicit _ _ n len s v

/-- Settles O29: a step's next state is its command's. -/
theorem statusHasOneOfFiveValues : Obligations.StatusHasOneOfFiveValues := by
  intro s t h
  obtain ⟨i, -, hi⟩ := step_next h
  exact ⟨exec_status_eq hi, exec_statusSound hi⟩

/-- Settles O1: the one command word, at the six values of `OP`. -/
theorem commandWordIsTheSumOfItsFields : Obligations.CommandWordIsTheSumOfItsFields := fun f =>
  ⟨toNat_commandWord 0 f, toNat_commandWord 1 f, toNat_commandWord 2 f, toNat_commandWord 3 f,
    toNat_commandWord 4 f, toNat_commandWord 5 f⟩

/-- Settles O5: the decoder evaluated on the seven words. -/
theorem writtenOutWordsDecode : Obligations.WrittenOutWordsDecode := by
  unfold Obligations.WrittenOutWordsDecode
  decide

/-- Settles O7: such a word stops the decoder, at its `OP` or already at a reserved bit. -/
theorem unusedOpcodesAreRefused : Obligations.UnusedOpcodesAreRefused := by
  intro s h
  cases hr : reservedZero s.cmdw with
  | false => exact ⟨_, step_of_decode_error (decode_of_reserved s.cmdw hr)⟩
  | true =>
    have hop : opField s.cmdw = 6 ∨ opField s.cmdw = 7 := by
      rw [← and_seven_eq_iff, ← and_seven_eq_iff]
      exact h
    exact ⟨_, step_of_decode_error ((decode_eq_reservedOp_iff s.cmdw).2 ⟨hr, hop⟩)⟩

end Sys2Proof.Proofs
end

section
/-! SUPPORT. The CRC engine (40_crc.md): the division in place as a recursion on the leading symbol, the exclusive-or it
is made of, the quotient, and the verdict as divisibility. A well-formed divisor is written `true :: ds`, with `L-1`
symbols in `ds`. -/

namespace Sys2Proof.Machine

theorem DivisorWellFormed.eq_cons {d : Bits} (h : DivisorWellFormed d) : ∃ ds : Bits, d = true :: ds ∧ 0 < ds.length := by
  obtain ⟨hlen, hlead⟩ := h
  cases d with
  | nil => cases hlead
  | cons b ds =>
    cases hlead
    exact ⟨ds, rfl, Nat.lt_of_succ_lt_succ hlen⟩

/-! ### Zeros, and the trailing symbols of a sequence -/

theorem zeros_succ (k : Nat) : zeros (k + 1) = false :: zeros k := rfl

theorem zeros_append_zeros (j k : Nat) : zeros j ++ zeros k = zeros (j + k) := List.replicate_append_replicate

theorem allZero_append (s t : Bits) : allZero (s ++ t) = (allZero s && allZero t) := List.all_append

theorem allZero_zeros (k : Nat) : allZero (zeros k) = true := by simp [allZero, zeros]

/-- A sequence is all zeros exactly when it is the zeros of its length (00_scope.md R10). -/
theorem allZero_iff_eq_zeros (s : Bits) : allZero s = true ↔ s = zeros s.length := by
  rw [allZero_iff, zeros, List.eq_replicate_iff]
  simp

theorem lastBits_length (s : Bits) : lastBits s s.length = s := by simp [lastBits]

theorem lastBits_append_of_le {k : Nat} (s : Bits) {t : Bits} (h : k ≤ t.length) :
    lastBits (s ++ t) k = lastBits t k := by
  rw [lastBits, List.length_append, Nat.add_sub_assoc h, List.drop_length_add_append, lastBits]

theorem lastBits_cons {k : Nat} (b : Bool) {s : Bits} (h : k ≤ s.length) : lastBits (b :: s) k = lastBits s k :=
  lastBits_append_of_le [b] h

theorem lastBits_zeros {j k : Nat} (h : k ≤ j) : lastBits (zeros j) k = zeros k := by
  rw [lastBits, length_zeros, zeros, List.drop_replicate, Nat.sub_sub_self h, zeros]

theorem lastBits_zeros_append_of_lt {k : Nat} {t : Bits} (h : t.length < k) :
    lastBits (zeros k ++ t) k = zeros (k - t.length) ++ t := by
  have hsplit : zeros k = zeros t.length ++ zeros (k - t.length) := by
    rw [zeros_append_zeros, Nat.add_sub_cancel' h.le]
  have hlen : (zeros (k - t.length) ++ t).length = k := by simp [h.le]
  calc lastBits (zeros k ++ t) k
      _ = lastBits (zeros (k - t.length) ++ t) k := by
        rw [hsplit, List.append_assoc, lastBits_append_of_le _ hlen.ge]
      _ = zeros (k - t.length) ++ t := by simpa only [hlen] using lastBits_length (zeros (k - t.length) ++ t)

/-! ### The exclusive-or of two sequences, and of a window -/

theorem xorBits_eq_zipWith (a b : Bits) : xorBits a b = List.zipWith Bool.xor a b := by
  induction a generalizing b with
  | nil => rfl
  | cons x a ih =>
    cases b with
    | nil => rfl
    | cons y b => rw [xorBits, ih, List.zipWith_cons_cons]

theorem xorBits_append {a₁ b₁ : Bits} (h : a₁.length = b₁.length) (a₂ b₂ : Bits) :
    xorBits (a₁ ++ a₂) (b₁ ++ b₂) = xorBits a₁ b₁ ++ xorBits a₂ b₂ := by
  simp only [xorBits_eq_zipWith, List.zipWith_append h]

theorem xorBits_zeros (a : Bits) : xorBits a (zeros a.length) = a := by
  induction a with
  | nil => rfl
  | cons x a ih => rw [List.length_cons, zeros_succ, xorBits, ih, Bool.xor_false]

theorem xorBits_comm (a b : Bits) : xorBits a b = xorBits b a := by
  rw [xorBits_eq_zipWith, xorBits_eq_zipWith, List.zipWith_comm_of_comm Bool.xor_comm]

theorem zeros_xorBits (a : Bits) : xorBits (zeros a.length) a = a := by rw [xorBits_comm, xorBits_zeros]

/-- Over GF(2) adding twice is adding nothing (40_crc.md R110). -/
theorem xorBits_xorBits_cancel {a b : Bits} (h : a.length = b.length) : xorBits (xorBits a b) b = a := by
  induction a generalizing b with
  | nil => rfl
  | cons x a ih =>
    cases b with
    | nil => cases h
    | cons y b => rw [xorBits, xorBits, ih (Nat.succ_injective h), Bool.xor_assoc, Bool.xor_self, Bool.xor_false]

theorem xorBits_self (a : Bits) : xorBits a a = zeros a.length := by
  simpa only [zeros_xorBits] using xorBits_xorBits_cancel (length_zeros a.length)

/-- A window of the whole sequence is the exclusive-or (40_crc.md R111). -/
theorem xorLead_eq_xorBits {d w : Bits} (h : d.length = w.length) : xorLead d w = xorBits w d := by
  induction d generalizing w with
  | nil =>
    rw [List.eq_nil_of_length_eq_zero h.symm]
    rfl
  | cons c d ih =>
    cases w with
    | nil => cases h
    | cons b w => rw [xorLead, ih (Nat.succ_injective h), xorBits]

/-- A window at index 0 leaves the symbols behind it alone (40_crc.md R111). -/
theorem xorLead_append {d w : Bits} (h : d.length ≤ w.length) (v : Bits) : xorLead d (w ++ v) = xorLead d w ++ v := by
  induction d generalizing w with
  | nil => rfl
  | cons c d ih =>
    cases w with
    | nil => cases h
    | cons x w => rw [List.cons_append, xorLead, xorLead, ih (Nat.le_of_succ_le_succ h), List.cons_append]

/-- A window cancels itself (40_crc.md R110). -/
theorem xorLead_xorLead_self (d w : Bits) : xorLead d (xorLead d w) = w := by
  induction d generalizing w with
  | nil => rfl
  | cons c d ih =>
    cases w with
    | nil => rfl
    | cons b w => rw [xorLead, xorLead, ih, Bool.xor_assoc, Bool.xor_self, Bool.xor_false]

theorem xorLead_injective (d : Bits) : Function.Injective (xorLead d) :=
  Function.LeftInverse.injective (xorLead_xorLead_self d)

theorem xorBits_xorLead_left (d a b : Bits) : xorBits (xorLead d a) b = xorLead d (xorBits a b) := by
  induction d generalizing a b with
  | nil => rfl
  | cons c d ih =>
    cases a with
    | nil => rfl
    | cons x a =>
      cases b with
      | nil => rfl
      | cons y b => rw [xorLead, xorBits, xorBits, xorLead, ih, Bool.xor_right_comm]

theorem xorBits_xorLead_right (d a b : Bits) : xorBits a (xorLead d b) = xorLead d (xorBits a b) := by
  rw [xorBits_comm, xorBits_xorLead_left, xorBits_comm]

/-- The windows chosen by two leading symbols add up to the one chosen by their sum. -/
theorem xorLead_ite_xor (a b : Bool) (d w : Bits) :
    xorLead (if a ^^ b then d else []) w = xorLead (if b then d else []) (xorLead (if a then d else []) w) := by
  cases a <;> cases b <;> simp [xorLead, xorLead_xorLead_self]

/-! ### Division and product, by the leading symbol -/

theorem divPosition_cons_zero (c b : Bool) (ds w : Bits) :
    divPosition (c :: ds) (b :: w) 0 = (if b then b ^^ c else b) :: xorLead (if b then ds else []) w := by
  cases b <;> rfl

theorem divPosition_cons_succ (d : Bits) (b : Bool) (w : Bits) (i : Nat) :
    divPosition d (b :: w) (i + 1) = b :: divPosition d w i := by
  simp only [divPosition, List.getD_cons_succ, xorWindow]
  split <;> rfl

/-- Positions past the leading symbol leave it alone. -/
theorem foldl_divPosition_cons (d : Bits) (is : List Nat) (b : Bool) (w : Bits) :
    (is.map Nat.succ).foldl (divPosition d) (b :: w) = b :: is.foldl (divPosition d) w := by
  induction is generalizing w with
  | nil => rfl
  | cons i is ih => rw [List.map_cons, List.foldl_cons, Nat.succ_eq_add_one, divPosition_cons_succ, ih, List.foldl_cons]

variable {ds : Bits}

/-- A division visits the leading symbol, clears it, and goes on behind it (40_crc.md R111, R112 (b)). -/
theorem div2_cons {w : Bits} (b : Bool) (h : ds.length ≤ w.length) :
    div2 (b :: w) (true :: ds) = false :: div2 (xorLead (if b then ds else []) w) (true :: ds) := by
  have hpositions : (b :: w).length + 1 - (true :: ds).length = w.length + 1 - (true :: ds).length + 1 := by
    simp only [List.length_cons]
    omega
  have hlead : (if b then b ^^ true else b) = false := by cases b <;> rfl
  rw [div2, hpositions, List.range_succ_eq_map, List.foldl_cons, divPosition_cons_zero, hlead,
    foldl_divPosition_cons, div2, length_xorLead]

/-- A leading 0 is left alone, whatever the length (40_crc.md R111). -/
theorem div2_cons_false (w : Bits) : div2 (false :: w) (true :: ds) = false :: div2 w (true :: ds) := by
  by_cases h : ds.length ≤ w.length
  · exact div2_cons false h
  · rw [div2_of_short, div2_of_short] <;> simp only [List.length_cons] <;> omega

theorem div2_zeros_append (k : Nat) (w : Bits) :
    div2 (zeros k ++ w) (true :: ds) = zeros k ++ div2 w (true :: ds) := by
  induction k with
  | zero => rfl
  | succ k ih => rw [zeros_succ, List.cons_append, div2_cons_false, ih, List.cons_append]

theorem div2_zeros (k : Nat) : div2 (zeros k) (true :: ds) = zeros k := by
  have hnil : div2 [] (true :: ds) = [] := div2_of_short [] (true :: ds) (Nat.succ_pos ds.length)
  simpa only [hnil, List.append_nil] using div2_zeros_append (ds := ds) k []

/-- The product by its quotient's leading symbol (00_scope.md R10). -/
theorem polyMul_cons (b : Bool) (q : Bits) :
    polyMul (b :: q) (true :: ds) = b :: xorLead (if b then ds else []) (polyMul q (true :: ds)) := by
  cases b <;> simp [polyMul, xorLead]

/-- The recursion of the division (40_crc.md R111): a sequence with no room for a window, or one window taken off the
leading end. -/
theorem division_induction {P : ∀ w : Bits, ds.length ≤ w.length → Prop}
    (noWindow : ∀ (w : Bits) (h : w.length = ds.length), P w h.ge)
    (window : ∀ (b : Bool) (w : Bits) (h : ds.length ≤ w.length),
      P (xorLead (if b then ds else []) w) (h.trans_eq (length_xorLead _ w).symm) → P (b :: w) (Nat.le_succ_of_le h))
    (w : Bits) (h : ds.length ≤ w.length) : P w h := by
  obtain ⟨n, hn⟩ := Nat.exists_eq_add_of_le' h
  induction n generalizing w with
  | zero => exact noWindow w (hn.trans (Nat.zero_add _))
  | succ n ih =>
    cases w with
    | nil =>
      rw [List.length_nil] at hn
      omega
    | cons b w =>
      have hw : w.length = n + ds.length := by
        rw [List.length_cons] at hn
        omega
      exact window b w (hw ▸ Nat.le_add_left _ _) (ih _ _ ((length_xorLead _ w).trans hw))

/-! ### What a division leaves -/

/-- Only the last `L-1` symbols can be left nonzero (40_crc.md R112 (b)). -/
theorem div2_eq_zeros_append {w : Bits} (h : ds.length ≤ w.length) :
    div2 w (true :: ds) = zeros (w.length - ds.length) ++ lastBits (div2 w (true :: ds)) ds.length := by
  induction w, h using division_induction with
  | noWindow w h => rw [div2_of_short w _ (by simp [h]), h, Nat.sub_self, ← h, lastBits_length]; rfl
  | window b w h ih =>
    rw [length_xorLead] at ih
    rw [div2_cons b h, lastBits_cons _ (by simpa using h), List.length_cons, Nat.succ_sub h, zeros_succ,
      List.cons_append, ← ih]

/-- The windows taken off make up a quotient (40_crc.md R112 (d)). -/
theorem exists_quotient {w : Bits} (h : ds.length ≤ w.length) :
    ∃ q : Bits, q.length + ds.length = w.length ∧ xorBits (polyMul q (true :: ds)) (div2 w (true :: ds)) = w := by
  induction w, h using division_induction with
  | noWindow w h =>
    refine ⟨[], by simp [h], ?_⟩
    rw [div2_of_short w _ (by simp [h]), polyMul, List.length_cons, Nat.add_sub_cancel, ← h, zeros_xorBits]
  | window b w h ih =>
    obtain ⟨q, hlen, hq⟩ := ih
    rw [length_xorLead] at hlen
    refine ⟨b :: q, by rw [List.length_cons, List.length_cons, ← hlen, Nat.add_right_comm], ?_⟩
    rw [div2_cons b h, polyMul_cons, xorBits, xorBits_xorLead_left, hq, xorLead_xorLead_self, Bool.xor_false]

theorem polyMul_injective {p q : Bits} (hlen : p.length = q.length)
    (h : polyMul p (true :: ds) = polyMul q (true :: ds)) : p = q := by
  induction p generalizing q with
  | nil => exact (List.eq_nil_of_length_eq_zero hlen.symm).symm
  | cons a p ih =>
    cases q with
    | nil => cases hlen
    | cons b q =>
      rw [polyMul_cons, polyMul_cons] at h
      obtain ⟨rfl, htail⟩ := List.cons.inj h
      rw [ih (Nat.succ_injective hlen) (xorLead_injective _ htail)]

/-- Over GF(2) the quotient times the divisor is the sequence with its remainder added (40_crc.md R110). -/
theorem polyMul_eq_xorBits_div2 {q w : Bits} (hlen : q.length + ds.length = w.length)
    (h : xorBits (polyMul q (true :: ds)) (div2 w (true :: ds)) = w) :
    polyMul q (true :: ds) = xorBits w (div2 w (true :: ds)) := by
  have hlen' : (polyMul q (true :: ds)).length = (div2 w (true :: ds)).length := by simpa using hlen
  rw [← xorBits_xorBits_cancel hlen', h]

/-- Adding a multiple of the divisor does not change the remainder (40_crc.md R124). -/
theorem div2_polyMul_xorBits {q r : Bits} (hlen : q.length + ds.length = r.length) :
    div2 (xorBits (polyMul q (true :: ds)) r) (true :: ds) = div2 r (true :: ds) := by
  induction q generalizing r with
  | nil =>
    have hzeros : polyMul [] (true :: ds) = zeros r.length := by simp [polyMul, ← hlen]
    rw [hzeros, zeros_xorBits]
  | cons a q ih =>
    cases r with
    | nil => simp at hlen
    | cons b r =>
      have hr : q.length + ds.length = r.length := by
        simp only [List.length_cons] at hlen
        omega
      have hproduct : (polyMul q (true :: ds)).length = r.length := (length_polyMul q _).trans hr
      calc div2 (xorBits (polyMul (a :: q) (true :: ds)) (b :: r)) (true :: ds)
          _ = false :: div2 (xorLead (if b then ds else []) (xorBits (polyMul q (true :: ds)) r)) (true :: ds) := by
            rw [polyMul_cons, xorBits, xorBits_xorLead_left, div2_cons _ (by simp [hproduct]; omega),
              xorLead_ite_xor, xorLead_xorLead_self]
          _ = false :: div2 (xorLead (if b then ds else []) r) (true :: ds) := by
            rw [← xorBits_xorLead_right, ih (by rw [hr, length_xorLead])]
          _ = div2 (b :: r) (true :: ds) := (div2_cons b (by omega)).symm

/-! ### The verdict -/

/-- The verdict is whether nothing is left, long or short (40_crc.md R122). -/
theorem verifyCrc_eq_allZero (c : Bits) : verifyCrc c (true :: ds) = allZero (div2 c (true :: ds)) := by
  by_cases h : ds.length ≤ c.length
  · have hk : min (div2 c (true :: ds)).length ((true :: ds).length - 1) = ds.length := by simp [h]
    rw [div2_eq_zeros_append h, allZero_append, allZero_zeros, Bool.true_and, verifyCrc, hk]
  · have hshort : div2 c (true :: ds) = c := div2_of_short c _ (by rw [List.length_cons]; omega)
    have hk : min c.length ((true :: ds).length - 1) = c.length := by
      rw [List.length_cons]
      omega
    rw [verifyCrc, hshort, hk, lastBits_length]

theorem verifyCrc_of_short {c : Bits} (h : c.length < (true :: ds).length) :
    verifyCrc c (true :: ds) = allZero c := by
  rw [verifyCrc_eq_allZero, div2_of_short c _ h]

theorem verifyCrc_zeros_append (k : Nat) (c : Bits) :
    verifyCrc (zeros k ++ c) (true :: ds) = verifyCrc c (true :: ds) := by
  rw [verifyCrc_eq_allZero, div2_zeros_append, allZero_append, allZero_zeros, Bool.true_and, verifyCrc_eq_allZero]

theorem verifyCrc_polyMul (q : Bits) : verifyCrc (polyMul q (true :: ds)) (true :: ds) = true := by
  have hlen : (polyMul q (true :: ds)).length = q.length + ds.length := length_polyMul q _
  have hdiv := div2_polyMul_xorBits (q := q) (r := zeros (q.length + ds.length)) (length_zeros _).symm
  rw [← hlen, xorBits_zeros, div2_zeros] at hdiv
  rw [verifyCrc_eq_allZero, hdiv, allZero_zeros]

/-- A sequence that verifies, with room for a quotient, is a product (40_crc.md R124). -/
theorem exists_polyMul_of_verifyCrc {c : Bits} (h : ds.length ≤ c.length) (hc : verifyCrc c (true :: ds) = true) :
    ∃ q : Bits, q.length + ds.length = c.length ∧ polyMul q (true :: ds) = c := by
  obtain ⟨q, hlen, hq⟩ := exists_quotient h
  rw [verifyCrc_eq_allZero, allZero_iff_eq_zeros, length_div2] at hc
  exact ⟨q, hlen, by rw [polyMul_eq_xorBits_div2 hlen hq, hc, xorBits_zeros]⟩

/-- The verdict is divisibility (40_crc.md R120, R124). -/
theorem verifyCrc_iff_isMultiple (c : Bits) : verifyCrc c (true :: ds) = true ↔ IsMultiple c (true :: ds) := by
  by_cases h : c.length < (true :: ds).length
  · rw [IsMultiple, if_pos h, verifyCrc_of_short h]
  · rw [IsMultiple, if_neg h]
    simp only [List.length_cons, ← Nat.add_assoc, Nat.add_right_cancel_iff] at h ⊢
    constructor
    · exact exists_polyMul_of_verifyCrc (by omega)
    · rintro ⟨q, -, rfl⟩
      exact verifyCrc_polyMul q

/-- A sequence that verifies, added to another, leaves its verdict (40_crc.md R124). -/
theorem verifyCrc_xorBits_of_verifyCrc {c e : Bits} (hlen : c.length = e.length)
    (hc : verifyCrc c (true :: ds) = true) : verifyCrc (xorBits c e) (true :: ds) = verifyCrc e (true :: ds) := by
  by_cases h : ds.length ≤ c.length
  · obtain ⟨q, hq, rfl⟩ := exists_polyMul_of_verifyCrc h hc
    rw [verifyCrc_eq_allZero, div2_polyMul_xorBits (hq.trans hlen), verifyCrc_eq_allZero]
  · rw [verifyCrc_of_short (by rw [List.length_cons]; omega), allZero_iff_eq_zeros, hlen] at hc
    rw [hc, zeros_xorBits]

/-! ### A single flipped symbol -/

theorem singleError_eq_append {n k : Nat} (h : k < n) :
    singleError n k = zeros (n - 1 - k) ++ true :: zeros k := by
  have hsplit : zeros n = zeros (n - 1 - k) ++ false :: zeros k := by
    rw [← zeros_succ, zeros_append_zeros]
    congr 1
    omega
  have hset := List.set_append_right (s := zeros (n - 1 - k)) (t := false :: zeros k) (n - 1 - k) true (by simp)
  rw [singleError, hsplit, hset, length_zeros, Nat.sub_self, List.set_cons_zero]

theorem polyMul_one (ds : Bits) : polyMul [true] (true :: ds) = true :: ds := by
  have hsum : xorLead ds (zeros ds.length) = ds := by rw [xorLead_eq_xorBits (length_zeros _).symm, zeros_xorBits]
  rw [polyMul_cons]
  exact congrArg (true :: ·) hsum

/-- A last 0 of the quotient is a last 0 of the product. -/
theorem polyMul_concat_false (q : Bits) : polyMul (q ++ [false]) (true :: ds) = polyMul q (true :: ds) ++ [false] := by
  induction q with
  | nil => exact List.replicate_succ'
  | cons b q ih =>
    have hfits : (if b then ds else []).length ≤ (polyMul q (true :: ds)).length := by
      cases b <;> simp
    rw [List.cons_append, polyMul_cons, ih, xorLead_append hfits, polyMul_cons, List.cons_append]

theorem getLast?_xorLead {d w : Bits} (h : d.length < w.length) : (xorLead d w).getLast? = w.getLast? := by
  have hpast : d.getD (w.length - 1) false = false := List.getD_eq_default _ _ (by omega)
  rw [List.getLast?_eq_getElem?, xorLead_getElem?, length_xorLead, hpast, List.getLast?_eq_getElem?]
  simp

/-- A last 1 of the quotient brings the divisor's last symbol to the end of the product. -/
theorem getLast?_polyMul_concat_true (q : Bits) :
    (polyMul (q ++ [true]) (true :: ds)).getLast? = (true :: ds).getLast? := by
  induction q with
  | nil => rw [List.nil_append, polyMul_one]
  | cons b q ih =>
    have hfits : (if b then ds else []).length < (polyMul (q ++ [true]) (true :: ds)).length := by
      cases b <;> simp
    rw [List.cons_append, polyMul_cons, List.getLast?_cons, getLast?_xorLead hfits, ih]
    rfl

/-- With a divisor that ends in 1, a sequence whose last symbol is 0 is a multiple only if it is one without it
(40_crc.md R125, from general knowledge G2). -/
theorem verifyCrc_of_concat_false {w : Bits} (hlast : (true :: ds).getLast? = some true)
    (h : verifyCrc (w ++ [false]) (true :: ds) = true) : verifyCrc w (true :: ds) = true := by
  by_cases hfits : ds.length ≤ w.length
  · obtain ⟨q, hlen, hq⟩ := exists_polyMul_of_verifyCrc (by simp; omega) h
    obtain rfl | ⟨p, c, rfl⟩ := List.eq_nil_or_concat' q
    · rw [List.length_nil, List.length_append, List.length_singleton] at hlen
      omega
    · cases c with
      | false =>
        rw [polyMul_concat_false] at hq
        rw [← List.append_cancel_right hq]
        exact verifyCrc_polyMul p
      | true =>
        have hend := getLast?_polyMul_concat_true (ds := ds) p
        rw [hq, hlast, List.getLast?_concat] at hend
        cases hend
  · rw [verifyCrc_of_short (by simp; omega), allZero_append, Bool.and_eq_true] at h
    rw [verifyCrc_of_short (by simp; omega)]
    exact h.1

theorem verifyCrc_of_append_zeros {w : Bits} {k : Nat} (hlast : (true :: ds).getLast? = some true)
    (h : verifyCrc (w ++ zeros k) (true :: ds) = true) : verifyCrc w (true :: ds) = true := by
  induction k with
  | zero => simpa [zeros] using h
  | succ k ih =>
    rw [zeros, List.replicate_succ', ← List.append_assoc] at h
    exact ih (verifyCrc_of_concat_false hlast h)

/-- `x^k` is no multiple of a divisor of at least two symbols that ends in 1 (40_crc.md R125). -/
theorem verifyCrc_singleError {n k : Nat} (hlen : 0 < ds.length) (hlast : (true :: ds).getLast? = some true)
    (h : k < n) : verifyCrc (singleError n k) (true :: ds) = false := by
  rw [singleError_eq_append h, verifyCrc_zeros_append, Bool.eq_false_iff]
  intro hpower
  have hone : verifyCrc [true] (true :: ds) = true := verifyCrc_of_append_zeros (w := [true]) hlast hpower
  rw [verifyCrc_of_short (by simpa using hlen)] at hone
  cases hone

/-! ### The serial form -/

/-- A shift of the serial form takes one window off the register and the symbols still to come (40_crc.md R127). -/
theorem serialShift_append {a b : Bool} {r w : Bits} (h : r.length + 1 = ds.length) :
    serialShift (true :: ds) (a :: r) b ++ w = xorLead (if a then ds else []) (r ++ b :: w) := by
  have hassoc : r ++ b :: w = (r ++ [b]) ++ w := (List.append_cons r b w)
  cases a with
  | false => simp [serialShift, xorLead]
  | true =>
    rw [hassoc, if_pos rfl, xorLead_append (by simp [h]), xorLead_eq_xorBits (by simp [h])]
    rfl

theorem length_serialShift {a b : Bool} {r : Bits} (h : r.length + 1 = ds.length) :
    (serialShift (true :: ds) (a :: r) b).length = ds.length := by
  have happend := congrArg List.length (serialShift_append (a := a) (b := b) (w := []) h)
  simpa [h] using happend

/-- The register holds the remainder of what it was loaded with and what was shifted in (40_crc.md R127). -/
theorem foldl_serialShift_eq_lastBits_div2 {r : Bits} (w : Bits) (hr : r.length = ds.length) (hlen : 0 < ds.length) :
    w.foldl (serialShift (true :: ds)) r = lastBits (div2 (r ++ w) (true :: ds)) ds.length := by
  induction w generalizing r with
  | nil => rw [List.append_nil, div2_of_short r _ (by simp [hr]), ← hr, lastBits_length, List.foldl_nil]
  | cons b w ih =>
    cases r with
    | nil => exact absurd hr hlen.ne
    | cons a r =>
      have hfits : ds.length ≤ (r ++ b :: w).length := by
        simp only [List.length_append, List.length_cons] at hr ⊢
        omega
      rw [List.foldl_cons, ih (length_serialShift hr), serialShift_append hr, List.cons_append, div2_cons a hfits,
        lastBits_cons _ (by simpa using hfits)]

/-- The serial form divides the sequence behind `L-1` leading zeros (40_crc.md R127). -/
theorem serialRemainder_eq_lastBits (w : Bits) (hlen : 0 < ds.length) :
    serialRemainder w (true :: ds) = lastBits (zeros ds.length ++ div2 w (true :: ds)) ds.length := by
  rw [← div2_zeros_append, ← foldl_serialShift_eq_lastBits_div2 w (length_zeros _) hlen]
  rfl

/-! ### The generator -/

/-- `generate_crc` reads the remainder of the padded message (40_crc.md R113). -/
theorem generateCrc_cons_eq (m : Bits) :
    generateCrc m (true :: ds) = lastBits (div2 (m ++ zeros ds.length) (true :: ds)) ds.length := rfl

/-- A message padded with zeros leaves zeros and the remainder (40_crc.md R112 (b), R113). -/
theorem div2_padded (m : Bits) :
    div2 (m ++ zeros ds.length) (true :: ds) = zeros m.length ++ generateCrc m (true :: ds) := by
  have h := div2_eq_zeros_append (ds := ds) (w := m ++ zeros ds.length) (by simp)
  rwa [List.length_append, length_zeros, Nat.add_sub_cancel] at h

/-- A message with its remainder is a multiple of the divisor (40_crc.md R123). -/
theorem verifyCrc_append_generateCrc (m : Bits) : verifyCrc (m ++ generateCrc m (true :: ds)) (true :: ds) = true := by
  obtain ⟨q, hqlen, hq⟩ := exists_quotient (ds := ds) (w := m ++ zeros ds.length) (by simp)
  have hlen : (generateCrc m (true :: ds)).length = ds.length := length_generateCrc m _
  have hproduct : polyMul q (true :: ds) = m ++ generateCrc m (true :: ds) := by
    rw [polyMul_eq_xorBits_div2 hqlen hq, div2_padded, xorBits_append (length_zeros _).symm, xorBits_zeros, ← hlen,
      zeros_xorBits]
  rw [← hproduct]
  exact verifyCrc_polyMul q

/-- The generator by the serial form (40_crc.md R127). -/
theorem generateCrc_eq_serialRemainder (m : Bits) (hlen : 0 < ds.length) :
    generateCrc m (true :: ds) = serialRemainder (m ++ zeros ds.length) (true :: ds) := by
  rw [serialRemainder_eq_lastBits _ hlen, lastBits_append_of_le _ (by simp), generateCrc_cons_eq]

theorem generateCrc_zeros (k : Nat) : generateCrc (zeros k) (true :: ds) = zeros ds.length := by
  rw [generateCrc_cons_eq, zeros_append_zeros, div2_zeros, lastBits_zeros (Nat.le_add_left _ _)]

theorem generateCrc_cons_false (m : Bits) : generateCrc (false :: m) (true :: ds) = generateCrc m (true :: ds) := by
  rw [generateCrc_cons_eq, List.cons_append, div2_cons_false, lastBits_cons _ (by simp), generateCrc_cons_eq]

/-- The divisor's own remainder: its first window is itself (40_crc.md R114 (g)). -/
theorem generateCrc_self (ds : Bits) : generateCrc (true :: ds) (true :: ds) = zeros ds.length := by
  rw [generateCrc_cons_eq, List.cons_append, div2_cons true (by simp), if_pos rfl, xorLead_append le_rfl,
    xorLead_eq_xorBits rfl, xorBits_self,
    zeros_append_zeros, div2_zeros, ← zeros_succ, lastBits_zeros (by omega)]

/-- The serial form by a divisor of two symbols, with its one-symbol register (40_crc.md R114 (f), R127). -/
theorem foldl_serialShift_two (c a : Bool) (w : Bits) :
    w.foldl (serialShift [true, c]) [a] = [w.foldl (fun r b => (r && c) ^^ b) a] := by
  induction w generalizing a with
  | nil => rfl
  | cons b w ih =>
    have hshift : serialShift [true, c] [a] b = [(a && c) ^^ b] := by cases a <;> cases b <;> cases c <;> rfl
    rw [List.foldl_cons, hshift, ih, List.foldl_cons]

/-- The remainder by a divisor of two symbols: the padding shifts out what the message left in the register. -/
theorem generateCrc_two (m : Bits) (c : Bool) :
    generateCrc m [true, c] = [m.foldl (fun r b => (r && c) ^^ b) false && c] := by
  calc generateCrc m [true, c]
      _ = serialRemainder (m ++ [false]) [true, c] := generateCrc_eq_serialRemainder (ds := [c]) m Nat.one_pos
      _ = [(m ++ [false]).foldl (fun r b => (r && c) ^^ b) false] := foldl_serialShift_two c false _
      _ = [m.foldl (fun r b => (r && c) ^^ b) false && c] := by rw [List.foldl_concat, Bool.xor_false]

end Sys2Proof.Machine
end

section
/-! PROOFS. The statements of 40_crc.md: what the division leaves, the verdict, the laws of the code, and the serial
form. -/

namespace Sys2Proof.Proofs

open Sys2Proof.Machine

/-- Settles O41: the windows taken off clear the leading symbols and make up the quotient, and the product determines
its quotient. -/
theorem div2LeavesTheRemainder : Obligations.Div2LeavesTheRemainder := by
  intro w d hd
  obtain ⟨ds, rfl, -⟩ := hd.eq_cons
  refine ⟨length_div2 w _, fun h k hk => ?_, div2_of_short w _, fun h => ?_⟩
  · have hk' : k < w.length - ds.length := by
      rw [List.length_cons] at h hk
      omega
    rw [div2_eq_zeros_append (Nat.le_of_succ_le h), List.getElem?_append_left (by simpa using hk'), zeros,
      List.getElem?_replicate_of_lt hk']
  · obtain ⟨q, hlen, hq⟩ := exists_quotient (Nat.le_of_succ_le h)
    refine ⟨q, ⟨congrArg Nat.succ hlen, hq⟩, fun p ⟨hplen, hp⟩ => ?_⟩
    have hplen' : p.length + ds.length = w.length := Nat.succ_injective hplen
    refine polyMul_injective (ds := ds) (by omega) ?_
    rw [polyMul_eq_xorBits_div2 hplen' hp, polyMul_eq_xorBits_div2 hlen hq]

/-- Settles O44: the message with its remainder is a product of the divisor. -/
theorem generatedCodewordVerifies : Obligations.GeneratedCodewordVerifies := by
  intro m d _ hd
  obtain ⟨ds, rfl, -⟩ := hd.eq_cons
  exact verifyCrc_append_generateCrc m

/-- Settles O46: adding a sequence that verifies leaves the pattern's verdict, which is divisibility. -/
theorem undetectedErrorsAreTheMultiples : Obligations.UndetectedErrorsAreTheMultiples := by
  intro c e d hd hlen hc
  obtain ⟨ds, rfl, -⟩ := hd.eq_cons
  rw [verifyCrc_xorBits_of_verifyCrc hlen hc, verifyCrc_iff_isMultiple]

/-- Settles O47: the flipped symbol's pattern is `x^k`, no multiple of the divisor. -/
theorem singleSymbolErrorsAreDetected : Obligations.SingleSymbolErrorsAreDetected := by
  intro c d k hd hlast hc hk
  obtain ⟨ds, rfl, hds⟩ := hd.eq_cons
  have hlen : c.length = (singleError c.length k).length := by simp [singleError]
  rw [verifyCrc_xorBits_of_verifyCrc hlen hc, verifyCrc_singleError hds hlast hk]

/-- Settles O48: the register ends with the remainder of the sequence behind `L-1` zeros, which the division leaves
in front of it. -/
theorem serialFormComputesTheRemainder : Obligations.SerialFormComputesTheRemainder := by
  intro w d hd
  obtain ⟨ds, rfl, hds⟩ := hd.eq_cons
  rw [serialRemainder_eq_lastBits w hds, List.length_cons, Nat.add_sub_cancel]
  refine ⟨fun h => lastBits_append_of_le _ (by simpa using h), fun h => ?_⟩
  rw [div2_of_short w (true :: ds) (Nat.lt_succ_of_lt h), lastBits_zeros_append_of_lt h]

/-- Settles O43: the one form of the verdict, and the division of a short sequence. -/
theorem verdictIsAnAllZeroDivision : Obligations.VerdictIsAnAllZeroDivision := by
  intro c d hd
  obtain ⟨ds, rfl, -⟩ := hd.eq_cons
  exact ⟨verifyCrc_eq_allZero c, fun h => by rw [verifyCrc_of_short h, allZero_iff_eq_zeros]⟩

/-- Settles O49: the division of zeros and behind a leading zero, the one-symbol register, and the divisor's own
window. -/
theorem remainderCornerCases : Obligations.RemainderCornerCases := by
  intro m d hd
  obtain ⟨ds, rfl, -⟩ := hd.eq_cons
  refine ⟨generateCrc_zeros, generateCrc_cons_false m, length_generateCrc m _, ?_, ?_, generateCrc_self ds⟩
  · simp only [generateCrc_two, Bool.and_true]
  · simp only [generateCrc_two, Bool.and_false]

end Sys2Proof.Proofs
end

section
/-! SUPPORT. The bit-stuffer and the bit-unstuffer (41_stuffing.md): runs of ones, the stuffer's counter against the
length of the run, and the unstuffer by its streaming form, which does not look ahead. -/

namespace Sys2Proof.Machine

/-! ### Runs of ones -/

theorem ones_succ (k : Nat) : ones (k + 1) = true :: ones k := rfl

/-- A one that follows a run makes it longer. -/
theorem ones_append_true_cons (k : Nat) (t : Bits) : ones k ++ true :: t = ones (k + 1) ++ t := by
  rw [ones, ones, List.replicate_succ', List.append_assoc, List.singleton_append]

/-- A 0 ends a run: a longer one does not stand in front. -/
theorem not_ones_prefix_of_lt {c k : Nat} (h : c < k) (t : Bits) : ¬ ones k <+: ones c ++ false :: t := by
  induction c generalizing k with
  | zero =>
    obtain ⟨j, rfl⟩ := Nat.exists_eq_add_one.2 h
    exact fun hj => absurd (List.cons_prefix_cons.1 hj).1 (by decide)
  | succ c ih =>
    obtain ⟨j, rfl⟩ := Nat.exists_eq_add_one.2 (Nat.zero_lt_of_lt h)
    rw [ones_succ, ones_succ, List.cons_append, List.cons_prefix_cons]
    exact fun ⟨_, hj⟩ => ih (Nat.lt_of_succ_lt_succ h) hj

/-- A run of `k` ones does not reach over a 0, so it is not found where fewer stand in front of one. -/
theorem ones_infix_of_lt {c k : Nat} (h : c < k) {t : Bits} (ht : ones k <:+: ones c ++ false :: t) :
    ones k <:+: t := by
  induction c with
  | zero => exact (List.infix_cons_iff.1 ht).resolve_left (not_ones_prefix_of_lt h t)
  | succ c ih =>
    exact ih (Nat.lt_of_succ_lt h) ((List.infix_cons_iff.1 ht).resolve_left (not_ones_prefix_of_lt h t))

theorem oneRunsFrom_ones (c k : Nat) : oneRunsFrom c (ones k) = [c + k] := by
  induction k generalizing c with
  | zero => rfl
  | succ k ih => rw [ones_succ, oneRunsFrom, ih, Nat.succ_add_eq_add_succ]

/-! ### The stuffer -/

/-- A one that fills the counter: the run has one full group of `n` more, and the count restarts. -/
theorem succ_div_mod_of_full {c n : Nat} (hn : 1 ≤ n) (h : c % n + 1 = n) :
    (c + 1) / n = c / n + 1 ∧ (c + 1) % n = 0 := by
  rw [Nat.div_mod_unique hn, Nat.mul_succ]
  have := Nat.mod_add_div c n
  omega

/-- A one that does not fill the counter is counted and nothing else. -/
theorem succ_div_mod_of_not_full {c n : Nat} (hn : 1 ≤ n) (h : c % n + 1 ≠ n) :
    (c + 1) / n = c / n ∧ (c + 1) % n = c % n + 1 := by
  rw [Nat.div_mod_unique hn]
  have := Nat.mod_add_div c n
  have := Nat.mod_lt c hn
  omega

/-- In a run that is `c` ones long already the counter is `c % n`, and `c / n` of the run's markers are out
(41_stuffing.md R143 (a)). -/
theorem length_stuffFrom_add_div {n : Nat} (hn : 1 ≤ n) (c : Nat) (s : Bits) :
    (stuffFrom n (c % n) s).length + c / n = s.length + ((oneRunsFrom c s).map (· / n)).sum := by
  induction s generalizing c with
  | nil => simp [oneRunsFrom]
  | cons b s ih =>
    cases b with
    | false =>
      have hrest := ih 0
      rw [Nat.zero_mod, Nat.zero_div] at hrest
      simp only [stuffFrom_false, oneRunsFrom, List.length_cons, List.map_cons, List.sum_cons]
      omega
    | true =>
      have hrest := ih (c + 1)
      rw [stuffFrom_true, oneRunsFrom]
      split
      next hfull =>
        obtain ⟨hdiv, hmod⟩ := succ_div_mod_of_full hn hfull
        rw [hdiv, hmod] at hrest
        simp only [List.length_cons]
        omega
      next hfull =>
        obtain ⟨hdiv, hmod⟩ := succ_div_mod_of_not_full hn hfull
        rw [hdiv, hmod] at hrest
        simp only [List.length_cons]
        omega

/-- One marker for every `n` ones of each maximal run (41_stuffing.md R143 (a)). -/
theorem length_stuff {n : Nat} (hn : 1 ≤ n) (s : Bits) :
    (stuff s n).length = s.length + ((oneRuns s).map (· / n)).sum := by
  have h := length_stuffFrom_add_div hn 0 s
  rwa [Nat.zero_mod, Nat.zero_div, Nat.add_zero] at h

/-- The counter is the length of the run of ones that the output ends with, and stays below `n` between symbols
(41_stuffing.md R142 (g)); with that run in front, the output has no run of `n + 1` ones. -/
theorem not_ones_infix_stuffFrom {n c : Nat} (hc : c < n) (s : Bits) :
    ¬ ones (n + 1) <:+: ones c ++ stuffFrom n c s := by
  induction s generalizing c with
  | nil =>
    intro h
    have hlen := h.length_le
    simp only [stuffFrom_nil, List.append_nil, ones, List.length_replicate] at hlen
    omega
  | cons b s ih =>
    have hrestart : ¬ ones (n + 1) <:+: stuffFrom n 0 s := ih (Nat.zero_lt_of_lt hc)
    cases b with
    | false =>
      rw [stuffFrom_false]
      exact fun h => hrestart (ones_infix_of_lt (Nat.lt_succ_of_lt hc) h)
    | true =>
      rw [stuffFrom_true]
      split <;> rw [ones_append_true_cons]
      next hfull =>
        rw [hfull]
        exact fun h => hrestart (ones_infix_of_lt n.lt_succ_self h)
      next hfull => exact ih (Nat.lt_of_le_of_ne hc hfull)

/-! ### The unstuffer, by its streaming form -/

@[simp] theorem streamFrom_nil (n c : Nat) (armed : Bool) : streamFrom n c armed [] = [] := rfl

/-- A one is copied and arms the unit when it brings the count to `n` (41_stuffing.md R154). -/
@[simp] theorem streamFrom_true (n c : Nat) (armed : Bool) (s : Bits) :
    streamFrom n c armed (true :: s) = true :: streamFrom n (c + 1) (decide (c + 1 = n)) s := by
  simp [streamFrom]

@[simp] theorem streamFrom_armed_false (n c : Nat) (s : Bits) :
    streamFrom n c true (false :: s) = streamFrom n 0 false s := by
  simp [streamFrom]

@[simp] theorem streamFrom_unarmed_false (n c : Nat) (s : Bits) :
    streamFrom n c false (false :: s) = false :: streamFrom n 0 false s := by
  simp [streamFrom]

/-- The look-ahead of the unstuffer is the memory of the streaming form (41_stuffing.md R154). -/
theorem streamFrom_eq_unstuffFrom (n c : Nat) (s : Bits) : streamFrom n c false s = unstuffFrom n c s := by
  induction c, s using unstuffFrom.induct (n := n) with
  | case1 c => simp
  | case2 c s ih => simp [ih]
  | case3 c s hfull ih => simp [unstuffFrom_true_false, hfull, ih]
  | case4 c s hfull ih =>
    rw [streamFrom_true, decide_eq_false hfull, ih, unstuffFrom_true_false, if_neg hfull, unstuffFrom_false]
  | case5 c s hnext ih =>
    cases s with
    | nil => simp
    | cons b s =>
      cases b with
      | false => exact absurd rfl (hnext s)
      | true => rw [unstuffFrom_true_true, ← ih, streamFrom_true, streamFrom_true, streamFrom_true]

theorem streamUnstuff_eq_unstuff (s : Bits) (n : Nat) : streamUnstuff s n = unstuff s n :=
  streamFrom_eq_unstuffFrom n 0 s

/-- The two units count alike: each marker meets the unstuffer armed, each 0 of the message unarmed
(41_stuffing.md R152). -/
theorem streamFrom_stuffFrom (n c : Nat) (s : Bits) : streamFrom n c false (stuffFrom n c s) = s := by
  induction s generalizing c with
  | nil => simp
  | cons b s ih =>
    cases b with
    | false => simp [ih]
    | true =>
      rw [stuffFrom_true]
      split
      next hfull => simp [hfull, ih]
      next hfull => rw [streamFrom_true, decide_eq_false hfull, ih]

/-- A run of ones is copied, and leaves the unit armed exactly when it brings the count to `n`
(41_stuffing.md R151). -/
theorem streamFrom_ones_append (n c k : Nat) (s : Bits) :
    streamFrom n c (decide (c = n)) (ones k ++ s) = ones k ++ streamFrom n (c + k) (decide (c + k = n)) s := by
  induction k generalizing c with
  | zero => rfl
  | succ k ih =>
    rw [ones_succ, List.cons_append, streamFrom_true, ih, List.cons_append, Nat.succ_add_eq_add_succ]

theorem unstuff_ones_append {n : Nat} (hn : 1 ≤ n) (k : Nat) (s : Bits) :
    unstuff (ones k ++ s) n = ones k ++ streamFrom n k (decide (k = n)) s := by
  have h := streamFrom_ones_append n 0 k s
  rwa [decide_eq_false (Nat.ne_of_lt hn), Nat.zero_add, streamFrom_eq_unstuffFrom] at h

end Sys2Proof.Machine
end

section
/-! PROOFS. The statements of 41_stuffing.md: the laws of the stuffer, the round trip, the runs the unstuffer shortens,
and its streaming form. -/

namespace Sys2Proof.Proofs

open Sys2Proof.Machine

/-- Settles O52: the law of the length, with one run of `k` ones for the upper bound. -/
theorem stuffAddsOneMarkerPerFullRun : Obligations.StuffAddsOneMarkerPerFullRun := by
  refine ⟨fun s n hn => ⟨length_stuff hn s, ?_, length_stuff_le s n⟩, fun k => ?_⟩
  · rw [length_stuff hn]
    exact Nat.le_add_right _ _
  · rw [length_stuff le_rfl, oneRuns, oneRunsFrom_ones]
    simp [ones, Nat.two_mul]

/-- Settles O53: the pass starts with the counter at 0 and no ones in front. -/
theorem stuffedSequenceHasNoLongRun : Obligations.StuffedSequenceHasNoLongRun :=
  fun s _ hn => not_ones_infix_stuffFrom hn s

/-- Settles O54: the streaming form takes out each marker as it comes. -/
theorem unstuffInvertsStuff : Obligations.UnstuffInvertsStuff := by
  intro s n _ _
  rw [← streamUnstuff_eq_unstuff]
  exact streamFrom_stuffFrom n 0 s

/-- Settles O56: the two forms agree from every count on, with `ARMED` clear. -/
theorem streamingUnstufferAgrees : Obligations.StreamingUnstufferAgrees := streamUnstuff_eq_unstuff

/-- Settles O55: the run leaves the streaming form armed exactly when it is `N` long, and only an armed unit drops
the 0. -/
theorem unstuffRemovesAMarkerOnlyAfterExactlyNOnes : Obligations.UnstuffRemovesAMarkerOnlyAfterExactlyNOnes := by
  intro k n s hn
  refine ⟨fun hk => ?_, ?_, ?_⟩
  · rw [unstuff_ones_append hn, decide_eq_false hk, streamFrom_unarmed_false, streamFrom_eq_unstuffFrom, unstuff]
  · rw [unstuff_ones_append hn, decide_eq_true rfl, streamFrom_armed_false, streamFrom_eq_unstuffFrom, unstuff]
  · have h := unstuff_ones_append hn k []
    rwa [streamFrom_nil, List.append_nil] at h

end Sys2Proof.Proofs
end

section
/-! SUPPORT. The pipeline (42_pipeline.md): the response of each accepted command, its lengths as the registers show
them, where codeword' is split, and the receive path behind the send path. -/

namespace Sys2Proof.Machine

/-! ### What a command presents -/

theorem SelectsDivisor.wellFormed {f : Fields} {s : State} {d : Bits} (h : SelectsDivisor f s d) :
    DivisorWellFormed d := by
  unfold SelectsDivisor at h
  split at h
  · obtain ⟨-, -, hwf, -⟩ := h
    exact hwf
  · subst h
    decide

/-- With `DSEL = 0` the divisor is `1101` (30_encoding.md R83). -/
theorem SelectsDivisor.eq_default {f : Fields} {s : State} {d : Bits} (h : SelectsDivisor f s d)
    (hf : f.dsel = false) : d = [true, true, false, true] := by
  rwa [SelectsDivisor, if_neg (Bool.eq_false_iff.1 hf)] at h

theorem PresentsBits.length_le {s : State} {b : Bits} (h : PresentsBits s b) : b.length ≤ 1024 := by
  obtain ⟨-, -, hlen, -⟩ := h
  rwa [List.length_map] at hlen

/-! ### The responses of accepted commands -/

section
variable {f : Fields} {s : State} {d b : Bits}

theorem exec_generateCrc_accepted (hd : SelectsDivisor f s d) (hb : PresentsBits s b) :
    exec (.generateCrc f) s = .next (complete (unitOf (.generateCrc f) d f.n.toNat b) s) :=
  exec_accepted hd hb nofun

theorem exec_verifyCrc_accepted (hd : SelectsDivisor f s d) (hb : PresentsBits s b) :
    exec (.verifyCrc f) s = .next (complete (unitOf (.verifyCrc f) d f.n.toNat b) s) :=
  exec_accepted hd hb nofun

theorem exec_stuff_accepted (hb : PresentsBits s b) (hn : f.n ≠ 0) :
    exec (.stuff f) s = .next (complete (unitOf (.stuff f) [] f.n.toNat b) s) :=
  exec_accepted (d := []) trivial hb fun _ => hn

theorem exec_unstuff_accepted (hb : PresentsBits s b) (hn : f.n ≠ 0) :
    exec (.unstuff f) s = .next (complete (unitOf (.unstuff f) [] f.n.toNat b) s) :=
  exec_accepted (d := []) trivial hb fun _ => hn

theorem exec_encodeFrame_accepted (hd : SelectsDivisor f s d) (hb : PresentsBits s b) (hn : f.n ≠ 0) :
    exec (.encodeFrame f) s = .next (complete (unitOf (.encodeFrame f) d f.n.toNat b) s) :=
  exec_accepted hd hb fun _ => hn

theorem exec_decodeFrame_accepted (hd : SelectsDivisor f s d) (hb : PresentsBits s b) (hn : f.n ≠ 0) :
    exec (.decodeFrame f) s = .next (complete (unitOf (.decodeFrame f) d f.n.toNat b) s) :=
  exec_accepted hd hb fun _ => hn

end

/-- `OLEN` and `CWLEN` show the lengths of a unit's results: nothing is cut off (20_memory.md R66, log 8). -/
theorem toNat_lengths_complete (i : Instr) {d b : Bits} (n : Nat) (s : State) (hd : d.length ≤ 64)
    (hb : b.length ≤ 1024) :
    (complete (unitOf i d n b) s).olen.toNat = (unitOf i d n b).out.length ∧
      (complete (unitOf i d n b) s).cwlen.toNat = (unitOf i d n b).cw.length := by
  obtain ⟨hout, hcw⟩ := unitOf_lengths i n hd hb
  exact ⟨toNat_lengthWord hout, toNat_lengthWord (hcw.trans (by decide))⟩

/-! ### The split of codeword' -/

theorem length_messagePart (cw d : Bits) : (messagePart cw d).length = cw.length - (d.length - 1) := by
  rw [messagePart, List.length_take, Nat.min_eq_left (Nat.sub_le _ _)]

theorem messagePart_getElem? {cw d : Bits} {k : Nat} (h : k < (messagePart cw d).length) :
    (messagePart cw d)[k]? = cw[k]? := by
  rw [length_messagePart] at h
  rw [messagePart, List.getElem?_take_of_lt h]

/-- A codeword' of at most `L-1` symbols has no message' (42_pipeline.md R183, decision D19). -/
theorem messagePart_of_short {cw d : Bits} (h : cw.length ≤ d.length - 1) : messagePart cw d = [] := by
  rw [messagePart, Nat.sub_eq_zero_of_le h, List.take_zero]

/-- Its last `L-1` symbols cut off, a codeword is its message (42_pipeline.md R182). -/
theorem messagePart_codeword (m d : Bits) : messagePart (codeword m d) d = m := by
  rw [messagePart, length_codeword, Nat.add_sub_cancel, codeword, List.take_left]

/-! ### The receive path behind the send path -/

/-- The unstuffer takes a frame back to its codeword (41_stuffing.md R152, 42_pipeline.md R184). -/
theorem unstuff_encodeFrame {m : Bits} {n : Nat} (d : Bits) (hm : m ≠ []) (hn : 1 ≤ n) :
    unstuff (encodeFrame m n d) n = codeword m d :=
  Proofs.unstuffInvertsStuff _ n (List.append_ne_nil_of_left_ne_nil hm _) hn

/-- A codeword of the send path verifies (40_crc.md R123). -/
theorem verifyCrc_codeword {m d : Bits} (hm : m ≠ []) (hd : DivisorWellFormed d) :
    verifyCrc (codeword m d) d = true :=
  Proofs.generatedCodewordVerifies m d hm hd

/-- The receive path on a frame of the send path, whole: the message, a true verdict, the codeword (42_pipeline.md
R184). -/
theorem unitOf_decodeFrame_encodeFrame {m d : Bits} {n : Nat} (f : Fields) (hm : m ≠ []) (hn : 1 ≤ n)
    (hd : DivisorWellFormed d) :
    unitOf (.decodeFrame f) d n (encodeFrame m n d) =
      { err := none, valid := true, out := m, cw := codeword m d } := by
  simp only [unitOf, unstuff_encodeFrame d hm hn, messagePart_codeword, verifyCrc_codeword hm hd]

end Sys2Proof.Machine
end

section
/-! PROOFS. The statements of 42_pipeline.md: the round trip, the split point, a short codeword', and the two paths
against the primitives issued one by one. -/

namespace Sys2Proof.Proofs

open Sys2Proof.Machine

/-- Settles O59: unstuffing restores the codeword, which verifies and splits at the message; the command's response
is that of the units. -/
theorem pipelineRoundTrip : Obligations.PipelineRoundTrip := by
  refine ⟨fun m d n hm hn hd => ?_, fun f s d m hd hm hn => ?_⟩
  · rw [unstuff_encodeFrame d hm hn]
    exact ⟨messagePart_codeword m d, verifyCrc_codeword hm hd, rfl⟩
  · refine ⟨_, encodeFrame m f.n.toNat d, exec_encodeFrame_accepted hd hm hn, rfl, fun g s₂ hg hd₂ hframe => ?_⟩
    have hexec := exec_decodeFrame_accepted hd₂ hframe (hg ▸ hn)
    rw [hg, unitOf_decodeFrame_encodeFrame g hm.1 (BitVec.toNat_pos_of_ne_zero hn) hd.wellFormed] at hexec
    have hlen : m.length ≤ Config.outMax := hm.length_le.trans (by decide)
    exact ⟨_, hexec, rfl, toNat_lengthWord hlen, statusWord_zero true, rfl, rfl⟩

/-- Settles O23: message' is codeword' up to the split point, and the registers show both lengths. -/
theorem splitPointFollowsTheDivisor : Obligations.SplitPointFollowsTheDivisor := by
  intro f s d b hd hb hn
  obtain ⟨holen, hcwlen⟩ := toNat_lengths_complete (.decodeFrame f) f.n.toNat s hd.length_le hb.length_le
  have hsplit := length_messagePart (unstuff b f.n.toNat) d
  refine ⟨_, exec_decodeFrame_accepted hd hb hn, ?_, fun k hk => ?_, fun hf => ?_⟩
  · rw [holen, hcwlen]
    exact hsplit
  · rw [holen] at hk
    rw [complete_obuf, complete_cwbuf, Memory.read_ofSeq, Memory.read_ofSeq]
    exact messagePart_getElem? hk
  · obtain rfl := hd.eq_default hf
    rw [holen, hcwlen]
    exact hsplit

/-- Settles O25: nothing is left before the split point, and no window of the divisor fits into codeword'. -/
theorem shortCodewordGivesAnEmptyMessage : Obligations.ShortCodewordGivesAnEmptyMessage := by
  intro f s d b hd hb hn hshort
  obtain ⟨hlen, -⟩ := hd.wellFormed
  have hmessage := messagePart_of_short hshort
  have hverdict := (verdictIsAnAllZeroDivision (unstuff b f.n.toNat) d hd.wellFormed).2 (by omega)
  refine ⟨_, exec_decodeFrame_accepted hd hb hn, complete_err _ s, ?_, ?_, rfl, ?_⟩
  · rw [complete_olen]
    exact congrArg lengthWord hmessage
  · rw [complete_obuf]
    exact congrArg Memory.ofSeq hmessage
  · rw [complete_valid, ← allZero_iff, allZero_iff_eq_zeros]
    exact hverdict

/-- Settles O57: each command completes with its unit's response, and the send path is the two units in turn. -/
theorem encodeFrameAgreesWithThePrimitives : Obligations.EncodeFrameAgreesWithThePrimitives := by
  intro f s d m hd hm hn
  obtain ⟨-, hcwlen⟩ := toNat_lengths_complete (.encodeFrame f) f.n.toNat s hd.length_le hm.length_le
  refine ⟨_, _, generateCrc m d, exec_encodeFrame_accepted hd hm hn, exec_generateCrc_accepted hd hm, rfl, rfl, hcwlen,
    fun g s₂ hg hcodeword => ?_⟩
  have hexec := exec_stuff_accepted hcodeword (hg ▸ hn)
  rw [hg] at hexec
  exact ⟨_, hexec, rfl, rfl⟩

/-- Settles O58: each command completes with its unit's response, and the receive path is the unstuffer, then the
verdict on its output. -/
theorem decodeFrameAgreesWithThePrimitives : Obligations.DecodeFrameAgreesWithThePrimitives := by
  intro f s d b hd hb hn
  refine ⟨_, _, unstuff b f.n.toNat, exec_decodeFrame_accepted hd hb hn, exec_unstuff_accepted hb hn, rfl, rfl, rfl, rfl,
    fun g s₂ hd₂ hc => ⟨_, exec_verifyCrc_accepted hd₂ hc, ?_⟩⟩
  rw [complete_valid, complete_valid]
  rfl

end Sys2Proof.Proofs
end

section
/-! SUPPORT. How a command ends (60_exceptions.md): in a next state or in one of its own refusals, and what a rejection
leaves behind. -/

namespace Sys2Proof.Machine

/-- The state after a rejection, written out (60_exceptions.md R210). -/
theorem reject_eq (k : ErrorKind) (s : State) :
    reject k s = { s with status := 0#30 ++ k.code, olen := 0, obuf := [], cwlen := 0, cwbuf := [] } := by
  rw [← statusWord_false]
  rfl

/-- Only a rejection reports an error code: a unit's response has none (60_exceptions.md R205). -/
theorem eq_reject_of_err_ne_zero {i : Instr} {s t : State} (h : exec i s = .next t) (herr : t.err ≠ 0) :
    ∃ k, t = reject k s := by
  obtain ⟨o, k, -, -, rfl⟩ | ⟨o, b, -, -, rfl⟩ := exec_next h
  · exact ⟨k, rfl⟩
  · rw [complete_err, unitOf_err] at herr
    exact absurd rfl herr

/-- A command answers a next state, or is refused in operand assembly (42_pipeline.md R170). -/
theorem exec_next_or_refused (i : Instr) (s : State) :
    (∃ t, exec i s = .next t) ∨
      ∃ r ∈ [Refusal.illFormedDivisor, .inputTooLong, .inputNotWritten], exec i s = .refused r := by
  rw [exec_eq_perform]
  obtain ⟨r, hr, h⟩ | ⟨o, k, -, -, h⟩ | ⟨o, b, -, -, h⟩ :=
    perform_cases (usesOf i) (fieldsOfInstr i) (unitOf i) s
  · exact .inr ⟨r, by simpa using assemble_error hr, h⟩
  · exact .inl ⟨_, h⟩
  · exact .inl ⟨_, h⟩

/-- The refusals of a word that spells no command (30_encoding.md R91, R92). -/
theorem refusalOf_mem (e : DecodeError) : refusalOf e ∈ [Refusal.reservedBits, .reservedOp] := by
  cases e <;> decide

end Sys2Proof.Machine
end

section
/-! PROOFS. The statements of 60_exceptions.md: the frame of a rejection, a mismatch reported as data, and no fault. -/

namespace Sys2Proof.Proofs

open Sys2Proof.Machine

/-- Settles O16: a nonzero `ERR` is a rejection's, and its code is the one in `STATUS`. -/
theorem rejectionChangesOnlyTheResponse : Obligations.RejectionChangesOnlyTheResponse := by
  intro i s t h herr
  obtain ⟨k, rfl⟩ := eq_reject_of_err_ne_zero h herr
  rw [reject_err]
  exact reject_eq k s

/-- Settles O24: a false verdict is a field of the unit's response, and both commands complete with that response. -/
theorem crcMismatchIsReportedAsData : Obligations.CrcMismatchIsReportedAsData := by
  intro f s d b hd hb
  refine ⟨fun hverdict => ?_, fun hn hverdict => ?_⟩
  · exact ⟨_, exec_verifyCrc_accepted hd hb, complete_err _ s, (complete_valid _ s).trans hverdict⟩
  · exact ⟨_, exec_decodeFrame_accepted hd hb hn, complete_err _ s, (complete_valid _ s).trans hverdict,
      complete_obuf _ s, complete_cwbuf _ s⟩

/-- Settles O11: a word is refused by the decoder or performed, and no command performed ends in a fault. -/
theorem noCommandFaults : Obligations.NoCommandFaults := by
  intro s
  cases hd : decode s.cmdw with
  | error e => exact .inr ⟨_, List.mem_append_left _ (refusalOf_mem e), step_of_decode_error hd⟩
  | ok i =>
    rw [step_of_decode_ok hd]
    obtain hnext | ⟨r, hr, hrefused⟩ := exec_next_or_refused i s
    · exact .inl hnext
    · exact .inr ⟨r, List.mem_cons_of_mem _ (List.mem_cons_of_mem _ hr), hrefused⟩

end Sys2Proof.Proofs
end

section
/-! SUPPORT. The units' loops by iterations (70_reset_and_hazards.md R257): what their registers hold after any number
of iterations, and that a loop which has ended has computed its unit's result. -/

namespace Sys2Proof.Machine

/-! ### The division -/

/-- After `m` turns of the inner loop of `Div2` the first `m` symbols of the window are XORed (40_crc.md R111). -/
theorem foldl_xor_set_getElem? (d w : Bits) (i m k : Nat) :
    ((List.range m).foldl (fun w j => w.set (i + j) (w.getD (i + j) false ^^ d.getD j false)) w)[k]? =
      w[k]?.map (fun b => b ^^ (if i ≤ k ∧ k < i + m then d.getD (k - i) false else false)) := by
  induction m with
  | zero =>
    have hnone : ¬ (i ≤ k ∧ k < i + 0) := by omega
    simp only [List.range_zero, List.foldl_nil, if_neg hnone, Bool.xor_false, Option.map_id']
  | succ m ih =>
    rw [List.range_succ, List.foldl_append, List.foldl_cons, List.foldl_nil, List.getElem?_set']
    by_cases hk : i + m = k
    · subst hk
      rw [if_pos rfl, List.getD_eq_getElem?_getD, ih]
      cases w[i + m]? <;> simp
    · rw [if_neg hk, ih]
      have hiff : (i ≤ k ∧ k < i + (m + 1)) ↔ (i ≤ k ∧ k < i + m) := by omega
      simp only [hiff]

/-- The inner loop of `Div2` XORs the window (40_crc.md R111). -/
theorem xorLoop_eq_xorWindow (d : Bits) (i : Nat) (w : Bits) : xorLoop d i w = xorWindow i d w := by
  refine List.ext_getElem? fun k => ?_
  rw [xorLoop, foldl_xor_set_getElem?, xorWindow_getElem?]
  by_cases hk : k < i + d.length
  · simp only [hk, and_true]
  · have hpast : d.getD (k - i) false = false := List.getD_eq_default _ _ (by omega)
    simp only [hk, and_false, hpast, ite_self]

theorem divIteration_eq (d : Bits) (r : DivRegs) : divIteration d r = { w := divPosition d r.w r.i, i := r.i + 1 } := by
  rw [divIteration, divPosition, xorLoop_eq_xorWindow]

/-- After `k` iterations the engine has visited positions 0 to `k - 1` (40_crc.md R111). -/
theorem iterate_divIteration (d w : Bits) (k : Nat) :
    (divIteration d)^[k] (divStart w) = { w := (List.range k).foldl (divPosition d) w, i := k } := by
  induction k with
  | zero => rfl
  | succ k ih => rw [Function.iterate_succ_apply', ih, divIteration_eq, List.range_succ, List.foldl_append]; rfl

/-! ### The stuffer and the unstuffer -/

theorem lt_stuffIteration_i {s : Bits} (n : Nat) {r : StuffRegs} (h : r.i < s.length) :
    r.i < (stuffIteration s n r).i := by
  obtain ⟨_, h'⟩ | ⟨-, h'⟩ | ⟨-, h'⟩ := stuffIteration_cases s n r h <;> simp [h']

theorem lt_unstuffIteration_i {s : Bits} (n : Nat) {r : UnstuffRegs} (h : r.i < s.length) :
    r.i < (unstuffIteration s n r).i := by
  obtain ⟨_, h'⟩ | ⟨-, h'⟩ | h' := unstuffIteration_cases s n r h <;> simp [h']

/-- What the stuffer's loop will have written at its end: what `OUT` holds, then the rest of the pass
(41_stuffing.md R141). -/
def stuffPending (s : Bits) (n : Nat) (r : StuffRegs) : Bits := r.out ++ stuffFrom n r.cnt (s.drop r.i)

/-- What the unstuffer's loop will have written at its end: what `OUT` holds, then the rest of the pass
(41_stuffing.md R150). -/
def unstuffPending (s : Bits) (n : Nat) (r : UnstuffRegs) : Bits := r.out ++ unstuffFrom n r.cnt (s.drop r.i)

theorem stuffPending_of_ended {s : Bits} {r : StuffRegs} (n : Nat) (h : s.length ≤ r.i) :
    stuffPending s n r = r.out := by
  rw [stuffPending, List.drop_eq_nil_of_le h, stuffFrom_nil, List.append_nil]

theorem unstuffPending_of_ended {s : Bits} {r : UnstuffRegs} (n : Nat) (h : s.length ≤ r.i) :
    unstuffPending s n r = r.out := by
  rw [unstuffPending, List.drop_eq_nil_of_le h, unstuffFrom_nil, List.append_nil]

theorem stuffPending_stuffIteration (s : Bits) (n : Nat) (r : StuffRegs) :
    stuffPending s n (stuffIteration s n r) = stuffPending s n r := by
  unfold stuffIteration
  split
  next => rfl
  next hbit =>
    obtain ⟨hi, hbit⟩ := List.getElem?_eq_some_iff.1 hbit
    simp [stuffPending, List.drop_eq_getElem_cons hi, hbit]
  next hbit =>
    obtain ⟨hi, hbit⟩ := List.getElem?_eq_some_iff.1 hbit
    split <;> simp [stuffPending, List.drop_eq_getElem_cons hi, stuffFrom_true, *]

/-- A one is copied, and a 0 behind it is passed over when the one fills the counter (41_stuffing.md R150). -/
theorem unstuffFrom_true (n c : Nat) (s : Bits) :
    unstuffFrom n c (true :: s) =
      if c + 1 = n ∧ s[0]? = some false then true :: unstuffFrom n 0 (s.drop 1)
      else true :: unstuffFrom n (c + 1) s := by
  cases s with
  | nil => simp
  | cons b s => cases b <;> simp [unstuffFrom_true_false]

theorem unstuffPending_unstuffIteration (s : Bits) (n : Nat) (r : UnstuffRegs) :
    unstuffPending s n (unstuffIteration s n r) = unstuffPending s n r := by
  unfold unstuffIteration
  split
  next => rfl
  next hbit =>
    obtain ⟨hi, hbit⟩ := List.getElem?_eq_some_iff.1 hbit
    simp [unstuffPending, List.drop_eq_getElem_cons hi, hbit]
  next hbit =>
    obtain ⟨hi, hbit⟩ := List.getElem?_eq_some_iff.1 hbit
    have hrest : unstuffFrom n r.cnt (s.drop r.i) =
        if r.cnt + 1 = n ∧ s[r.i + 1]? = some false then true :: unstuffFrom n 0 (s.drop (r.i + 2))
        else true :: unstuffFrom n (r.cnt + 1) (s.drop (r.i + 1)) := by
      rw [List.drop_eq_getElem_cons hi, hbit, unstuffFrom_true, List.getElem?_drop, List.drop_drop]
    split <;> simp [unstuffPending, *]

theorem stuffPending_iterate (s : Bits) (n k : Nat) (r : StuffRegs) :
    stuffPending s n ((stuffIteration s n)^[k] r) = stuffPending s n r := by
  induction k generalizing r with
  | zero => rfl
  | succ k ih => rw [Function.iterate_succ_apply, ih, stuffPending_stuffIteration]

theorem unstuffPending_iterate (s : Bits) (n k : Nat) (r : UnstuffRegs) :
    unstuffPending s n ((unstuffIteration s n)^[k] r) = unstuffPending s n r := by
  induction k generalizing r with
  | zero => rfl
  | succ k ih => rw [Function.iterate_succ_apply, ih, unstuffPending_unstuffIteration]

/-- Once the stuffer's loop has ended, `OUT` is the unit's result (41_stuffing.md R141). -/
theorem iterate_stuffIteration_out {s : Bits} {n k : Nat} (h : s.length ≤ ((stuffIteration s n)^[k] stuffStart).i) :
    ((stuffIteration s n)^[k] stuffStart).out = stuff s n := by
  rw [← stuffPending_of_ended n h, stuffPending_iterate]
  rfl

/-- Once the unstuffer's loop has ended, `OUT` is the unit's result (41_stuffing.md R150). -/
theorem iterate_unstuffIteration_out {s : Bits} {n k : Nat}
    (h : s.length ≤ ((unstuffIteration s n)^[k] unstuffStart).i) :
    ((unstuffIteration s n)^[k] unstuffStart).out = unstuff s n := by
  rw [← unstuffPending_of_ended n h, unstuffPending_iterate]
  rfl

end Sys2Proof.Machine
end

section
/-! SUPPORT. Runs of inner steps within a bound (70_reset_and_hazards.md R257): they compose, a unit's loop runs to its
result, and an accepted command's units run to its response. -/

namespace Sys2Proof.Machine

/-! ### Runs within a bound -/

/-- From `p`, at most `n` inner steps lead to `q`. -/
def LeadsWithin (n : Nat) (p q : Progress) : Prop := ∃ k ≤ n, innerRun k p = .next q

theorem LeadsWithin.trans {m n : Nat} {p q r : Progress} (hpq : LeadsWithin m p q) (hqr : LeadsWithin n q r) :
    LeadsWithin (m + n) p r := by
  obtain ⟨j, hj, hp⟩ := hpq
  obtain ⟨k, hk, hq⟩ := hqr
  exact ⟨j + k, Nat.add_le_add hj hk, (innerRun_add hp k).trans hq⟩

theorem LeadsWithin.mono {m n : Nat} {p q : Progress} (h : LeadsWithin m p q) (hmn : m ≤ n) : LeadsWithin n p q := by
  obtain ⟨k, hk, hp⟩ := h
  exact ⟨k, hk.trans hmn, hp⟩

theorem leadsWithin_one {p q : Progress} (h : innerStep p = .next q) : LeadsWithin 1 p q :=
  ⟨1, le_rfl, innerRun_succ_of_next h 0⟩

/-- A command that ends within a bound has ended, and stays so, at the bound. -/
theorem LeadsWithin.innerRun_eq {n : Nat} {p : Progress} {t : State}
    (h : LeadsWithin n p { state := t, stage := .ended }) : innerRun n p = .next { state := t, stage := .ended } := by
  obtain ⟨k, hk, hp⟩ := h
  obtain ⟨j, rfl⟩ := Nat.exists_eq_add_of_le hk
  rw [innerRun_add hp, innerRun_ended]

/-! ### The units' loops -/

/-- In phase `ph` a command makes the iterations that `next` gives, and when there is none goes on to `fin`. -/
def PhaseLoops {R : Type} (t : Work) (next : R → Option R) (ph : R → Phase) (fin : R → Stage) : Prop :=
  ∀ r, workStep { t with phase := ph r } =
    match next r with
    | some r' => .running { t with phase := ph r' }
    | none => fin r

section
variable (t : Work)

theorem phaseLoops_generateCrc : PhaseLoops t (divNext t.d) .generateCrc fun r =>
    .responding { err := none, valid := false, out := remainderOf t.d r, cw := t.cw } := by
  intro r
  cases h : divNext t.d r <;> simp only [workStep, h]

theorem phaseLoops_verifyCrc : PhaseLoops t (divNext t.d) .verifyCrc fun r =>
    .responding { err := none, valid := verdictOf t.d r, out := t.out, cw := t.cw } := by
  intro r
  cases h : divNext t.d r <;> simp only [workStep, h]

theorem phaseLoops_stuff : PhaseLoops t (stuffNext t.input t.n) .stuff fun r =>
    .responding { err := none, valid := false, out := r.out, cw := t.cw } := by
  intro r
  cases h : stuffNext t.input t.n r <;> simp only [workStep, h]

theorem phaseLoops_unstuff : PhaseLoops t (unstuffNext t.input t.n) .unstuff fun r =>
    .responding { err := none, valid := false, out := r.out, cw := t.cw } := by
  intro r
  cases h : unstuffNext t.input t.n r <;> simp only [workStep, h]

theorem phaseLoops_encodeGenerate : PhaseLoops t (divNext t.d) .encodeGenerate fun r =>
    .running { t with cw := t.input ++ remainderOf t.d r, phase := .encodeStuff stuffStart } := by
  intro r
  cases h : divNext t.d r <;> simp only [workStep, h]

theorem phaseLoops_encodeStuff : PhaseLoops t (stuffNext t.cw t.n) .encodeStuff fun r =>
    .responding { err := none, valid := false, out := r.out, cw := t.cw } := by
  intro r
  cases h : stuffNext t.cw t.n r <;> simp only [workStep, h]

theorem phaseLoops_decodeUnstuff : PhaseLoops t (unstuffNext t.input t.n) .decodeUnstuff fun r =>
    .running { t with out := messagePart r.out t.d, cw := r.out, phase := .decodeVerify (divStart r.out) } := by
  intro r
  cases h : unstuffNext t.input t.n r <;> simp only [workStep, h]

theorem phaseLoops_decodeVerify : PhaseLoops t (divNext t.d) .decodeVerify fun r =>
    .responding { err := none, valid := verdictOf t.d r, out := t.out, cw := t.cw } := by
  intro r
  cases h : divNext t.d r <;> simp only [workStep, h]

end

section
variable {t : Work} (s : State)

/-- A unit's loop runs to its end, and one step more hands its registers on. -/
theorem leadsWithin_loop {R : Type} {next : R → Option R} {iter : R → R} {left : R → Nat} {ph : R → Phase}
    {fin : R → Stage} (hwork : PhaseLoops t next ph fin)
    (hnext : ∀ r, 0 < left r → next r = some (iter r)) (hend : ∀ r, left r = 0 → next r = none)
    (hdec : ∀ r, 0 < left r → left (iter r) < left r) (r : R) :
    ∃ k ≤ left r, left (iter^[k] r) = 0 ∧
      LeadsWithin (left r + 1) { state := s, stage := .running { t with phase := ph r } }
        { state := s, stage := fin (iter^[k] r) } := by
  obtain ⟨k, hk, hrun, hlast, hleft⟩ :=
    innerRun_loop (P := fun r => { state := s, stage := .running { t with phase := ph r } })
      (fun r r' h => by simp only [innerStep, hwork r, h]) hnext hend hdec r
  refine ⟨k, hk, hleft, LeadsWithin.trans ⟨k, hk, hrun⟩ (leadsWithin_one ?_)⟩
  simp only [innerStep, hwork _, hlast]

/-- The CRC engine ends with the division in `W` after `len(W) + 1 - L` iterations (40_crc.md R111). -/
theorem leadsWithin_division {ph : DivRegs → Phase} {fin : DivRegs → Stage}
    (hwork : PhaseLoops t (divNext t.d) ph fin) (w : Bits) :
    ∃ r, r.w = div2 w t.d ∧
      LeadsWithin (w.length + 1 - t.d.length + 1) { state := s, stage := .running { t with phase := ph (divStart w) } }
        { state := s, stage := fin r } := by
  obtain ⟨k, hk, hleft, hrun⟩ :=
    leadsWithin_loop s (iter := divIteration t.d) (left := fun r => r.w.length + 1 - t.d.length - r.i) hwork
      (fun r h => if_pos (by omega)) (fun r h => if_neg (by omega))
      (fun r h => by simp only [length_divIteration_w, divIteration_i]; omega) (divStart w)
  have hregs := iterate_divIteration t.d w k
  refine ⟨_, ?_, hrun⟩
  rw [hregs] at hleft ⊢
  simp only [length_foldl_divPosition, divStart] at hk hleft
  rw [div2, show w.length + 1 - t.d.length = k by omega]

/-- The stuffer ends with its result in `OUT` after one iteration for each symbol (41_stuffing.md R141). -/
theorem leadsWithin_stuffing {b : Bits} {ph : StuffRegs → Phase} {fin : StuffRegs → Stage}
    (hwork : PhaseLoops t (stuffNext b t.n) ph fin) :
    ∃ r, r.out = stuff b t.n ∧
      LeadsWithin (b.length + 1) { state := s, stage := .running { t with phase := ph stuffStart } }
        { state := s, stage := fin r } := by
  obtain ⟨k, -, hleft, hrun⟩ :=
    leadsWithin_loop s (iter := stuffIteration b t.n) (left := fun r => b.length - r.i) hwork
      (fun r h => if_pos (by omega)) (fun r h => if_neg (by omega))
      (fun r h => Nat.sub_lt_sub_left (Nat.lt_of_sub_pos h) (lt_stuffIteration_i t.n (Nat.lt_of_sub_pos h)))
      stuffStart
  exact ⟨_, iterate_stuffIteration_out (Nat.sub_eq_zero_iff_le.1 hleft), hrun⟩

/-- The unstuffer ends with its result in `OUT` after at most one iteration for each symbol (41_stuffing.md R150). -/
theorem leadsWithin_unstuffing {b : Bits} {ph : UnstuffRegs → Phase} {fin : UnstuffRegs → Stage}
    (hwork : PhaseLoops t (unstuffNext b t.n) ph fin) :
    ∃ r, r.out = unstuff b t.n ∧
      LeadsWithin (b.length + 1) { state := s, stage := .running { t with phase := ph unstuffStart } }
        { state := s, stage := fin r } := by
  obtain ⟨k, -, hleft, hrun⟩ :=
    leadsWithin_loop s (iter := unstuffIteration b t.n) (left := fun r => b.length - r.i) hwork
      (fun r h => if_pos (by omega)) (fun r h => if_neg (by omega))
      (fun r h => Nat.sub_lt_sub_left (Nat.lt_of_sub_pos h) (lt_unstuffIteration_i t.n (Nat.lt_of_sub_pos h)))
      unstuffStart
  exact ⟨_, iterate_unstuffIteration_out (Nat.sub_eq_zero_iff_le.1 hleft), hrun⟩

end

/-! ### The units of a command -/

theorem remainderOf_division {d m : Bits} {r : DivRegs} (h : r.w = div2 (m ++ zeros (d.length - 1)) d) :
    remainderOf d r = generateCrc m d := by
  rw [remainderOf, h, generateCrc]

theorem verdictOf_division {d c : Bits} {r : DivRegs} (h : r.w = div2 c d) : verdictOf d r = verifyCrc c d := by
  rw [verdictOf, h, verifyCrc]

section
variable (f : Fields) (o : Operands) (b : Bits) (s : State)

/-- `encode_frame` runs the generator and then the stuffer, on a codeword of `len(IN) + L - 1` symbols (42_pipeline.md
R175). -/
theorem leadsWithin_encodeFrame (hd : o.divisor.length ≤ 64) :
    LeadsWithin (2 * b.length + 65) { state := s, stage := .running (startWork (.encodeFrame f) o b) }
      { state := s, stage := .responding (unitOf (.encodeFrame f) o.divisor o.n b) } := by
  obtain ⟨r, hr, hgenerate⟩ := leadsWithin_division s (phaseLoops_encodeGenerate (startWork (.encodeFrame f) o b))
    (b ++ zeros (o.divisor.length - 1))
  simp only [startWork, remainderOf_division hr] at hgenerate
  obtain ⟨q, hq, hstuff⟩ := leadsWithin_stuffing s (phaseLoops_encodeStuff
    { startWork (.encodeFrame f) o b with cw := codeword b o.divisor })
  simp only [startWork, hq] at hstuff
  refine (hgenerate.trans hstuff).mono ?_
  simp only [List.length_append, length_zeros, length_codeword]
  omega

/-- `decode_frame` runs the unstuffer and then the verifier, on a codeword' of at most `len(IN)` symbols (42_pipeline.md
R180). -/
theorem leadsWithin_decodeFrame :
    LeadsWithin (2 * b.length + 3) { state := s, stage := .running (startWork (.decodeFrame f) o b) }
      { state := s, stage := .responding (unitOf (.decodeFrame f) o.divisor o.n b) } := by
  obtain ⟨q, hq, hunstuff⟩ := leadsWithin_unstuffing s (phaseLoops_decodeUnstuff (startWork (.decodeFrame f) o b))
  simp only [startWork, hq] at hunstuff
  obtain ⟨r, hr, hverify⟩ := leadsWithin_division s (phaseLoops_decodeVerify
    { startWork (.decodeFrame f) o b with out := messagePart (unstuff b o.n) o.divisor, cw := unstuff b o.n })
    (unstuff b o.n)
  simp only [startWork, verdictOf_division (d := o.divisor) hr] at hverify
  refine (hunstuff.trans hverify).mono ?_
  have := length_unstuff_le b o.n
  omega

/-- An accepted command's units run to its response, within `2 * len(IN) + 65` inner steps for a divisor of at most 64
symbols (42_pipeline.md R170 (3); log 2). -/
theorem leadsWithin_response (i : Instr) (hd : o.divisor.length ≤ 64) :
    LeadsWithin (2 * b.length + 65) { state := s, stage := .running (startWork i o b) }
      { state := s, stage := .responding (unitOf i o.divisor o.n b) } := by
  cases i with
  | generateCrc f =>
    obtain ⟨r, hr, hrun⟩ := leadsWithin_division s (phaseLoops_generateCrc (startWork (.generateCrc f) o b))
      (b ++ zeros (o.divisor.length - 1))
    simp only [startWork, remainderOf_division hr] at hrun
    refine hrun.mono ?_
    simp only [List.length_append, length_zeros]
    omega
  | verifyCrc f =>
    obtain ⟨r, hr, hrun⟩ := leadsWithin_division s (phaseLoops_verifyCrc (startWork (.verifyCrc f) o b)) b
    simp only [startWork, verdictOf_division (d := o.divisor) hr] at hrun
    exact hrun.mono (by omega)
  | stuff f =>
    obtain ⟨r, hr, hrun⟩ := leadsWithin_stuffing s (phaseLoops_stuff (startWork (.stuff f) o b))
    simp only [startWork, hr] at hrun
    exact hrun.mono (by omega)
  | unstuff f =>
    obtain ⟨r, hr, hrun⟩ := leadsWithin_unstuffing s (phaseLoops_unstuff (startWork (.unstuff f) o b))
    simp only [startWork, hr] at hrun
    exact hrun.mono (by omega)
  | encodeFrame f => exact leadsWithin_encodeFrame f o b s hd
  | decodeFrame f => exact (leadsWithin_decodeFrame f o b s).mono (by omega)

end

/-! ### A command whole -/

section
variable {i : Instr} {s : State} {o : Operands}

theorem leadsWithin_assembled (hdecode : decode s.cmdw = .ok i)
    (ho : assemble (usesOf i) (fieldsOfInstr i) s = .ok o) :
    LeadsWithin 1 (issueCommand s) { state := s, stage := .assembled i o } :=
  leadsWithin_one (by simp only [innerStep, issueCommand, fetchCommand, hdecode, ho])

theorem leadsWithin_rejected {k : ErrorKind} (h : frontEnd (usesOf i) o = .error k) :
    LeadsWithin 1 { state := s, stage := .assembled i o } { state := reject k s, stage := .ended } :=
  leadsWithin_one (by simp only [innerStep, h])

theorem leadsWithin_accepted {b : Bits} (h : frontEnd (usesOf i) o = .ok b) :
    LeadsWithin 1 { state := s, stage := .assembled i o } { state := s, stage := .running (startWork i o b) } :=
  leadsWithin_one (by simp only [innerStep, h])

theorem leadsWithin_completed (r : Response) :
    LeadsWithin 1 { state := s, stage := .responding r } { state := complete r s, stage := .ended } :=
  leadsWithin_one rfl

end

/-- A command that answers a next state gets there within `2 * ILEN + 68` inner steps (70_reset_and_hazards.md R257;
`DLEN_MAX` = 64, log 2). -/
theorem leadsWithin_of_step_next {s t : State} (h : step s = .next t) :
    LeadsWithin (2 * s.ilen.toNat + 68) (issueCommand s) { state := t, stage := .ended } := by
  obtain ⟨i, hdecode, hexec⟩ := step_next h
  obtain ⟨o, k, ho, hfront, rfl⟩ | ⟨o, b, ho, hfront, rfl⟩ := exec_next hexec
  · exact ((leadsWithin_assembled hdecode ho).trans (leadsWithin_rejected hfront)).mono (by omega)
  · obtain ⟨hd, -⟩ := assemble_lengths ho
    obtain ⟨-, -, hinput, -⟩ := (assemble_eq_ok_iff _ _ s o).1 ho
    obtain ⟨-, -, -, hb⟩ := frontEnd_eq_ok hfront
    have hlen : b.length = s.ilen.toNat := by rw [hb, List.length_map, hinput]
    have hunits := (leadsWithin_accepted hfront).trans (leadsWithin_response o b s i hd)
    have hwhole := ((leadsWithin_assembled hdecode ho).trans hunits).trans (leadsWithin_completed _)
    exact hwhole.mono (by omega)

/-- A command that is refused is refused at its first inner step (42_pipeline.md R170 (1)). -/
theorem innerStep_issueCommand_refused {s : State} {r : Refusal} (h : step s = .refused r) :
    innerStep (issueCommand s) = .refused r := by
  cases hd : decode s.cmdw with
  | error e =>
    rw [step_of_decode_error hd] at h
    cases h
    simp only [innerStep, issueCommand, fetchCommand, hd]
  | ok i =>
    rw [step_of_decode_ok hd, exec_eq_perform] at h
    obtain ⟨r', ha, h'⟩ | ⟨o, k, -, -, h'⟩ | ⟨o, b, -, -, h'⟩ :=
      perform_cases (usesOf i) (fieldsOfInstr i) (unitOf i) s <;> rw [h'] at h <;> cases h
    simp only [innerStep, issueCommand, fetchCommand, hd, ha]

theorem innerStep_of_ended {p : Progress} (h : p.stage = .ended) : innerStep p = .next p := by
  simp only [innerStep, h]

/-- Before a command has ended its state is the one it was issued in (10_state.md R37). -/
theorem innerRun_issueCommand_state {s : State} {k : Nat} {p : Progress} (h : innerRun k (issueCommand s) = .next p) :
    p.stage ≠ .ended → p.state = s := by
  refine innerRun_induction (P := fun p => p.stage ≠ .ended → p.state = s) (fun q q' hq hstep hq' => ?_)
    (fun _ => rfl) h
  rw [innerStep_state hstep hq']
  refine hq fun hended => hq' ?_
  rw [innerStep_of_ended hended] at hstep
  cases hstep
  exact hended

/-- Where a command has ended, the state is the one the step answers: runs of any two lengths agree. -/
theorem step_of_innerRun_ended {s : State} {k : Nat} {p : Progress} (h : innerRun k (issueCommand s) = .next p)
    (hp : p.stage = .ended) : step s = .next p.state := by
  obtain ⟨ps, stage⟩ := p
  cases hp
  cases hstep : step s with
  | next t =>
    have hbound := (leadsWithin_of_step_next hstep).innerRun_eq
    have hlong := innerRun_add hbound k
    rw [innerRun_ended, Nat.add_comm, innerRun_add h, innerRun_ended] at hlong
    cases hlong
    rfl
  | fault e => cases e
  | refused r =>
    cases k with
    | zero => cases h
    | succ k =>
      rw [innerRun_succ_of_refused (innerStep_issueCommand_refused hstep)] at h
      cases h

end Sys2Proof.Machine
end

section
/-! PROOFS. The statement of 70_reset_and_hazards.md on the finer step. -/

namespace Sys2Proof.Proofs

open Sys2Proof.Machine

/-- Settles O60: a command's stages lead to its next state within the bound or to its refusal at once, and runs of any
two lengths agree. -/
theorem innerStepsPerformTheCommand : Obligations.InnerStepsPerformTheCommand := by
  refine fun s => ⟨fun t h => (leadsWithin_of_step_next h).innerRun_eq, fun r h => ?_, fun k p h => ⟨?_, ?_⟩⟩
  · exact innerRun_succ_of_refused (innerStep_issueCommand_refused h) _
  · exact innerRun_issueCommand_state h
  · exact step_of_innerRun_ended h

end Sys2Proof.Proofs
end

section
/-! SUPPORT. The encoder behind the decoder: the one word of each command, and the word made again from its fields
(30_encoding.md R81, R90). -/

namespace Sys2Proof

theorem encode_eq_commandWord (i : Instr) : encode i = commandWord (opOf i) (Machine.fieldsOfInstr i) := by
  cases i <;> rfl

/-- The decoder's mask covers the bits that no field of the command word has (30_encoding.md R81). -/
theorem getLsbD_reservedMask (k : Nat) (hk : (4 ≤ k ∧ k < 8) ∨ (24 ≤ k ∧ k < 32)) :
    (0xFF0000F0#32).getLsbD k = true := by
  have hmask : ∀ k < 32, (4 ≤ k ∧ k < 8) ∨ (24 ≤ k ∧ k < 32) → (0xFF0000F0#32).getLsbD k = true := by decide
  exact hmask k (by omega) hk

/-- A word whose reserved fields are zero has a 0 at each of their bits. -/
theorem getLsbD_of_reservedZero {w : Word} (h : reservedZero w = true) {k : Nat}
    (hk : (4 ≤ k ∧ k < 8) ∨ (24 ≤ k ∧ k < 32)) : w.getLsbD k = false := by
  have hbit := congrArg (BitVec.getLsbD · k) ((reservedZero_iff w).1 h)
  simpa [BitVec.getLsbD_and, getLsbD_reservedMask k hk] using hbit

/-- A word whose reserved fields are zero is made of its `OP` and its fields (30_encoding.md R81). -/
theorem commandWord_of_reservedZero {w : Word} (h : reservedZero w = true) :
    commandWord (opField w) (fieldsOf w) = w := by
  apply BitVec.eq_of_getLsbD_eq
  intro k hk
  rw [getLsbD_commandWord]
  split_ifs with h3 h4 h8 h16 h24
  · simp [opField, h3]
  · simp [fieldsOf, h4]
  · exact (getLsbD_of_reservedZero h (.inl ⟨by omega, h8⟩)).symm
  · simp [fieldsOf, show k - 8 < 8 by omega, show 8 + (k - 8) = k by omega]
  · simp [fieldsOf, show k - 16 < 8 by omega, show 16 + (k - 16) = k by omega]
  · exact (getLsbD_of_reservedZero h (.inr ⟨by omega, hk⟩)).symm

end Sys2Proof
end

section
/-! PROOFS. The encoder and the decoder undo each other. -/

namespace Sys2Proof.Proofs

open Sys2Proof.Machine

/-- Settles O2: the command word has zero reserved bits, the command's `OP` and its fields. -/
theorem decodeOfEncodeIsTheCommand : Obligations.DecodeOfEncodeIsTheCommand := by
  intro i
  rw [decode_eq_ok_iff, encode_eq_commandWord]
  exact ⟨reservedZero_commandWord _ _, opField_commandWord _ _, (fieldsOf_commandWord _ _).symm⟩

/-- Settles O3: an accepted word has zero reserved bits, so `OP` and the fields make up the whole of it. -/
theorem encodeOfDecodeIsTheWord : Obligations.EncodeOfDecodeIsTheWord := by
  intro w i h
  obtain ⟨hreserved, hop, hfields⟩ := (decode_eq_ok_iff w i).1 h
  rw [encode_eq_commandWord, ← hop, hfields, commandWord_of_reservedZero hreserved]

end Sys2Proof.Proofs
end

section
/-! SUPPORT. The invariant under a step and under every action of the host, and what any run keeps. -/

namespace Sys2Proof.Machine

/-- What the host's actions keep one by one, a run of them keeps (20_memory.md R70 (a)). -/
theorem runHost_induction {P : State → Prop} (hact : ∀ a s t, P s → hostAct a s = .next t → P t)
    {acts : List HostAction} {s t : State} (hs : P s) (h : runHost acts s = .next t) : P t := by
  induction acts generalizing s with
  | nil =>
    cases h
    exact hs
  | cons a acts ih =>
    cases ha : hostAct a s with
    | next u =>
      rw [runHost_cons_of_next ha] at h
      exact ih (hact a s u hs ha) h
    | fault r => cases r
    | refused r =>
      simp only [runHost, ha] at h
      cases h

/-- The invariant at reset: no entry in any buffer, every length and `STATUS` zero (10_state.md R45). -/
theorem reset_inv : State.reset.Inv := ⟨Memory.wf_reset.1, by decide, by decide⟩

/-- A step reads `IBUF` and leaves it as it is; the response it writes is sound whatever stood there before. -/
theorem step_inv {s t : State} (hs : s.Inv) (h : step s = .next t) : t.Inv := by
  obtain ⟨hinput, -, -⟩ := hs
  obtain ⟨-, -, -, hibuf⟩ := step_commandKept h
  obtain ⟨i, -, hi⟩ := step_next h
  refine ⟨?_, exec_outputSound hi, exec_statusSound hi⟩
  rwa [State.InputSound, hibuf]

/-- The invariant of the response is about the response state alone. -/
theorem State.Inv.of_sameResponse {s t : State} (hs : s.Inv) (h : SameResponse s t) (hinput : t.InputSound) :
    t.Inv := by
  obtain ⟨-, houtput, hstatus⟩ := hs
  obtain ⟨hst, holen, hobuf, hcwlen, hcwbuf⟩ := h
  refine ⟨hinput, ?_, ?_⟩
  · rwa [State.OutputSound, ← holen, ← hobuf, ← hcwlen, ← hcwbuf]
  · rwa [State.StatusSound, State.err, State.valid, ← hst, ← holen, ← hcwlen]

/-- The host's accesses keep `IBUF` in canonical form: the one write to it is within its capacity (20_memory.md R60). -/
theorem hostAct_inputSound {a : HostAction} {s t : State} (hissue : a ≠ .issue) (hreset : a ≠ .reset)
    (hs : s.InputSound) (h : hostAct a s = .next t) : t.InputSound := by
  cases a with
  | issue => exact absurd rfl hissue
  | reset => exact absurd rfl hreset
  | readBuffer b k => rwa [readBuffer_next h]
  | writeIbuf k y =>
    rw [hostAct] at h
    by_cases hk : k < 1024
    · rw [hostWriteIbuf_of_lt y s hk] at h
      cases h
      exact Memory.wf_write Config.lenMax s.ibuf y hk hs
    · rw [hostWriteIbuf_of_le y s (Nat.not_lt.1 hk)] at h
      cases h
  | _ =>
    cases h
    exact hs

/-- Every action of the host keeps the invariant: an issue is a step, a reset starts over, no other action writes the
response state. -/
theorem hostAct_inv (a : HostAction) (s t : State) (hs : s.Inv) (h : hostAct a s = .next t) : t.Inv := by
  by_cases hissue : a = .issue
  · subst hissue
    exact step_inv hs h
  · by_cases hreset : a = .reset
    · subst hreset
      cases h
      exact reset_inv
    · exact hs.of_sameResponse (hostAct_sameResponse hissue hreset h) (hostAct_inputSound hissue hreset hs.1 h)

end Sys2Proof.Machine
end

section
/-! PROOFS. The invariant, at reset, under a step and in every reachable state; what the host's writes do. -/

namespace Sys2Proof.Proofs

open Sys2Proof.Machine

/-- Settles O37: by what a step keeps of the command state and how it writes the response. -/
theorem stepKeepsInv : Obligations.StepKeepsInv := fun _ _ => step_inv

/-- Settles O36: part by part. -/
theorem resetSatisfiesInv : Obligations.ResetSatisfiesInv := reset_inv

/-- Settles O38: by induction over the host's actions, from reset. -/
theorem reachableStatesSatisfyInv : Obligations.ReachableStatesSatisfyInv := by
  rintro s ⟨acts, hrun⟩
  exact runHost_induction hostAct_inv reset_inv hrun

/-- Settles O35: the write of an input symbol is a write to `IBUF` within its capacity, and no other of these actions
writes anything. -/
theorem hostWritesOnlyTheCommandState : Obligations.HostWritesOnlyTheCommandState := by
  refine fun s => ⟨fun _ => rfl, fun _ => rfl, fun _ => rfl, fun _ _ => rfl, fun _ _ => rfl, fun _ => rfl,
    fun k y hk => ?_, fun k y hk => hostWriteIbuf_of_le y s hk⟩
  exact ⟨_, hostWriteIbuf_of_lt y s hk, Memory.read_write_same _ _ _, fun j hj => Memory.read_write_ne _ _ hj, rfl⟩

/-- Settles O39: the writes put the command's items into the command state, and the decoder undoes the encoder. -/
theorem preparingPresentsTheCommand : Obligations.PreparingPresentsTheCommand := by
  intro s c h
  obtain ⟨m, hrun, hm⟩ := runHost_prepare s c h
  have hilen : (BitVec.ofNat 16 c.input.length).toNat = c.input.length := by
    rw [BitVec.toNat_ofNat, Nat.mod_eq_of_lt (by omega)]
  exact ⟨_, hrun, decodeOfEncodeIsTheCommand c.instr, rfl, ⟨hilen, h, hm⟩, rfl, rfl, rfl, rfl, rfl⟩

end Sys2Proof.Proofs
end

section
/-! SUPPORT. The units' loops run to their ends (70_reset_and_hazards.md R257): the division by its fixed number of
positions, the stuffer and the unstuffer by reaching the end of their input. -/

namespace Sys2Proof.Machine

/-- The loop of `Div2` visits the positions that `div2` does (40_crc.md R111). -/
theorem divLoop_w (w d : Bits) : (divLoop w d).w = div2 w d := by
  rw [divLoop, iterate_divIteration, div2]

/-- A loop whose position rises with each iteration, never past `len`, and stays where it is once there: after as many
iterations as were left, or more, it stands at `len`. -/
theorem iterate_reaches_end {R : Type} {iter : R → R} {pos : R → Nat} {len : Nat}
    (hended : ∀ r, pos r = len → iter r = r) (hrises : ∀ r, pos r < len → pos r < pos (iter r) ∧ pos (iter r) ≤ len)
    {k : Nat} {r : R} (hr : pos r ≤ len) (hk : len ≤ pos r + k) : pos (iter^[k] r) = len := by
  induction k generalizing r with
  | zero => exact le_antisymm hr hk
  | succ k ih =>
    rw [Function.iterate_succ_apply]
    rcases hr.eq_or_lt with hend | hlt
    · rw [hended r hend]
      exact ih hr (by omega)
    · obtain ⟨hrise, hle⟩ := hrises r hlt
      exact ih hle (by omega)

/-- Past the end of its input the stuffer does nothing (41_stuffing.md R141). -/
theorem stuffIteration_of_ended {s : Bits} (n : Nat) {r : StuffRegs} (h : s.length ≤ r.i) :
    stuffIteration s n r = r := by
  simp only [stuffIteration, List.getElem?_eq_none h]

/-- Past the end of its input the unstuffer does nothing (41_stuffing.md R150). -/
theorem unstuffIteration_of_ended {s : Bits} (n : Nat) {r : UnstuffRegs} (h : s.length ≤ r.i) :
    unstuffIteration s n r = r := by
  simp only [unstuffIteration, List.getElem?_eq_none h]

theorem stuffIteration_i_le {s : Bits} (n : Nat) {r : StuffRegs} (h : r.i < s.length) :
    (stuffIteration s n r).i ≤ s.length := by
  obtain ⟨_, h'⟩ | ⟨-, h'⟩ | ⟨-, h'⟩ := stuffIteration_cases s n r h <;> rw [h'] <;> exact h

/-- Where the unstuffer passes over a marker too, the marker is a symbol of the input (41_stuffing.md R150). -/
theorem unstuffIteration_i_le {s : Bits} (n : Nat) {r : UnstuffRegs} (h : r.i < s.length) :
    (unstuffIteration s n r).i ≤ s.length := by
  obtain ⟨_, h'⟩ | ⟨hmarker, h'⟩ | h' := unstuffIteration_cases s n r h <;> rw [h']
  · exact h
  · exact hmarker
  · exact h

theorem stuffLoop_i (s : Bits) (n : Nat) : (stuffLoop s n).i = s.length :=
  iterate_reaches_end (pos := StuffRegs.i) (fun _ h => stuffIteration_of_ended n h.ge)
    (fun _ h => ⟨lt_stuffIteration_i n h, stuffIteration_i_le n h⟩) (Nat.zero_le _) (Nat.le_add_left _ _)

theorem unstuffLoop_i (s : Bits) (n : Nat) : (unstuffLoop s n).i = s.length :=
  iterate_reaches_end (pos := UnstuffRegs.i) (fun _ h => unstuffIteration_of_ended n h.ge)
    (fun _ h => ⟨lt_unstuffIteration_i n h, unstuffIteration_i_le n h⟩) (Nat.zero_le _) (Nat.le_add_left _ _)

theorem stuffLoop_out (s : Bits) (n : Nat) : (stuffLoop s n).out = stuff s n :=
  iterate_stuffIteration_out (stuffLoop_i s n).ge

theorem unstuffLoop_out (s : Bits) (n : Nat) : (unstuffLoop s n).out = unstuff s n :=
  iterate_unstuffIteration_out (unstuffLoop_i s n).ge

end Sys2Proof.Machine
end

section
/-! PROOFS. The units' loops, iteration by iteration, compute the units. -/

namespace Sys2Proof.Proofs

open Sys2Proof.Machine

/-- Settles O42: by the registers after any number of iterations, at the number the loop makes. -/
theorem divisionIterationsComputeDiv2 : Obligations.DivisionIterationsComputeDiv2 := divLoop_w

/-- Settles O50: the loop reaches the end of its input, where `OUT` is the unit's result. -/
theorem stufferIterationsComputeStuff : Obligations.StufferIterationsComputeStuff :=
  fun s n => ⟨stuffLoop_out s n, stuffLoop_i s n⟩

/-- Settles O51: the loop reaches the end of its input, though an iteration may pass two symbols, and there `OUT` is
the unit's result. -/
theorem unstufferIterationsComputeUnstuff : Obligations.UnstufferIterationsComputeUnstuff :=
  fun s n => ⟨unstuffLoop_out s n, unstuffLoop_i s n⟩

end Sys2Proof.Proofs
end

section
/-! SUPPORT. A presented command is answered (42_pipeline.md R170): when its operands assemble, what the front end makes
of them, and the whole next state of an accepted command. -/

namespace Sys2Proof.Machine

/-! ### When the operands assemble -/

/-- Some input is presented exactly when its length fits and every entry of it has been written. -/
theorem exists_presentsSymbols_iff (s : State) :
    (∃ ys, PresentsSymbols s ys) ↔ s.ilen.toNat ≤ 1024 ∧ InputWritten s := by
  constructor
  · rintro ⟨ys, hlen, hmax, hread⟩
    refine ⟨hlen.trans_le hmax, fun k hk => ?_⟩
    rw [hlen] at hk
    rw [hread k hk, List.getElem?_eq_getElem hk, Option.isSome_some]
  · rintro ⟨hmax, hwritten⟩
    obtain ⟨ys, hys⟩ := Option.isSome_iff_exists.1 ((Memory.readSeq_isSome_iff s.ibuf s.ilen.toNat).2 hwritten)
    obtain ⟨hlen, hread⟩ := (Memory.readSeq_eq_some_iff _ _ _).1 hys
    exact ⟨ys, hlen.symm, hlen.trans_le hmax, fun k hk => hread k (hk.trans_eq hlen)⟩

theorem presentable_iff (i : Instr) (s : State) :
    Presentable i s ↔ (∃ d, PresentsDivisor i s d) ∧ ∃ ys, PresentsSymbols s ys := by
  rw [Presentable, exists_presentsSymbols_iff]

/-- The codec answers a command exactly when it is presentable (30_encoding.md R92): assembly alone refuses. -/
theorem exec_next_iff_presentable (i : Instr) (s : State) : (∃ t, exec i s = .next t) ↔ Presentable i s := by
  rw [presentable_iff]
  constructor
  · rintro ⟨t, h⟩
    obtain ⟨o, -, ha, -, -⟩ | ⟨o, -, ha, -, -⟩ := exec_next h <;> obtain ⟨hd, hy⟩ := presents_of_assembled ha <;>
      exact ⟨⟨_, hd⟩, _, hy⟩
  · rintro ⟨⟨d, hd⟩, ys, hy⟩
    rw [exec_of_assembled (assemble_presented hd hy)]
    split <;> exact ⟨_, rfl⟩

/-- A command whose divisor is accepted is refused for whatever stops the assembly of its input (log 6). -/
theorem exec_of_assembleInput_error {i : Instr} {s : State} {d : Bits} {r : Refusal} (hd : PresentsDivisor i s d)
    (h : assembleInput s = .error r) : exec i s = .refused r := by
  have hselect : (if (usesOf i).divisor then selectDivisor (fieldsOfInstr i) s.div else some []) =
      some (if usesDivisor i then d else []) := by
    cases i with
    | stuff f => rfl
    | unstuff f => rfl
    | _ => exact (selectDivisor_eq_some_iff _ s d).2 hd
  simp only [exec_eq_perform, perform, assemble, hselect, h]

/-- An input that fits but has an entry nothing has written is refused by name (log 3). -/
theorem assembleInput_of_not_written {s : State} (hlen : s.ilen.toNat ≤ 1024) (h : ¬ InputWritten s) :
    assembleInput s = .error .inputNotWritten := by
  have hnone : s.ibuf.readSeq s.ilen.toNat = none := by
    rwa [← Option.not_isSome_iff_eq_none, Memory.readSeq_isSome_iff]
  rw [assembleInput, if_pos hlen, hnone]

/-! ### What the front end makes of them -/

/-- A sequence without a non-binary symbol is a bit sequence (30_encoding.md R86). -/
theorem exists_bits_of_binary {ys : List Symbol} (h : ¬ ∃ y ∈ ys, y.getLsbD 1 = true) :
    ∃ b : Bits, ys = b.map symbolOf := by
  have hcode : ∀ y : Symbol, y.getLsbD 1 = false → symbolOf (bitOf y) = y := by decide
  refine ⟨ys.map bitOf, ?_⟩
  rw [List.map_map]
  exact (List.map_id ys).symm.trans
    (List.map_congr_left fun y hy => (hcode y (Bool.eq_false_iff.2 fun hy1 => h ⟨y, hy, hy1⟩)).symm)

/-- A command over an input with a non-binary symbol is rejected (60_exceptions.md R201). -/
theorem exec_of_nonbinary {i : Instr} {s : State} {d : Bits} {ys : List Symbol} (hd : PresentsDivisor i s d)
    (hy : PresentsSymbols s ys) (h : ∃ y ∈ ys, y.getLsbD 1 = true) :
    exec i s = .next (reject .invalidAlphabet s) := by
  obtain ⟨y, hmem, hnb⟩ := h
  have hbits : ys.all isBit = false := List.all_eq_false.2 ⟨y, hmem, by simp [isBit, hnb]⟩
  rw [exec_of_assembled (assemble_presented hd hy), frontEnd_alphabet _ _ (List.ne_nil_of_mem hmem) hbits]

/-- The error code of a presented command, by the checks in their order (42_pipeline.md R171, R172). -/
theorem exec_err_of_presented {i : Instr} {s : State} {d : Bits} {ys : List Symbol} (hd : PresentsDivisor i s d)
    (hy : PresentsSymbols s ys) :
    ∃ t, exec i s = .next t ∧
      t.err =
        if ys = [] then 2
        else if ∃ y ∈ ys, y.getLsbD 1 = true then 1
        else if usesThreshold i = true ∧ (fieldsOfInstr i).n = 0 then 3
        else 0 := by
  by_cases hempty : ys = []
  · subst hempty
    exact ⟨_, exec_of_empty_input hd hy, reject_err _ _⟩
  by_cases hnb : ∃ y ∈ ys, y.getLsbD 1 = true
  · rw [if_neg hempty, if_pos hnb]
    exact ⟨_, exec_of_nonbinary hd hy hnb, reject_err _ _⟩
  rw [if_neg hempty, if_neg hnb]
  obtain ⟨b, rfl⟩ := exists_bits_of_binary hnb
  have hb : PresentsBits s b := ⟨fun h => hempty (by rw [h, List.map_nil]), hy⟩
  by_cases hzero : usesThreshold i = true ∧ (fieldsOfInstr i).n = 0
  · rw [if_pos hzero]
    exact ⟨_, exec_of_zero_threshold hd hb hzero.1 hzero.2, reject_err _ _⟩
  · rw [if_neg hzero]
    refine ⟨_, exec_accepted hd hb fun hu hn => hzero ⟨hu, hn⟩, ?_⟩
    rw [complete_err, unitOf_err, errCode]

/-! ### The next state of an accepted command -/

/-- Only the verdict commands have a verdict (10_state.md R27). -/
theorem unitOf_valid {i : Instr} {d b : Bits} {n : Nat} (h : (unitOf i d n b).valid = true) :
    (∃ f, i = .verifyCrc f) ∨ ∃ f, i = .decodeFrame f := by
  cases i with
  | verifyCrc f => exact .inl ⟨f, rfl⟩
  | decodeFrame f => exact .inr ⟨f, rfl⟩
  | _ => cases h

/-- The state after an accepted command, written out (10_state.md R31). -/
theorem complete_accepted (v : Bool) (out cw : Bits) (s : State) :
    complete { err := none, valid := v, out := out, cw := cw } s =
      { s with
        status := if v = true then 4 else 0
        olen := BitVec.ofNat 16 out.length
        obuf := Memory.ofSeq out
        cwlen := BitVec.ofNat 16 cw.length
        cwbuf := Memory.ofSeq cw } := by
  rw [← statusWord_zero]
  rfl

/-- The remainder, read from the division loop's register (40_crc.md R113). -/
theorem generateCrc_eq_divLoop (m d : Bits) :
    generateCrc m d = lastBits (divLoop (m ++ zeros (d.length - 1)) d).w (d.length - 1) := by
  rw [divLoop_w, generateCrc]

/-- The verdict, read from the division loop's register (40_crc.md R120). -/
theorem verifyCrc_eq_divLoop (c d : Bits) :
    verifyCrc c d = allZero (lastBits (divLoop c d).w (min c.length (d.length - 1))) := by
  rw [divLoop_w, verifyCrc, length_div2]

end Sys2Proof.Machine
end

section
/-! PROOFS. Which commands are answered, what the front end decides, and what each command writes. -/

namespace Sys2Proof.Proofs

open Sys2Proof.Machine

/-- Settles O10: a step is its command, and a command is answered exactly when its operands assemble. -/
theorem stepAnswersExactlyThePresentableCommands : Obligations.StepAnswersExactlyThePresentableCommands := by
  intro s
  constructor
  · rintro ⟨t, h⟩
    obtain ⟨i, hdecode, hi⟩ := step_next h
    exact ⟨i, hdecode, (exec_next_iff_presentable i s).1 ⟨t, hi⟩⟩
  · rintro ⟨i, hdecode, hi⟩
    rw [step_of_decode_ok hdecode]
    exact (exec_next_iff_presentable i s).2 hi

/-- Settles O12: nothing is left to present, and the front end's first check rejects it. -/
theorem emptyInputIsRejected : Obligations.EmptyInputIsRejected := by
  rintro i s ⟨d, hd⟩ hilen
  have hy : PresentsSymbols s [] := ⟨by rw [hilen]; rfl, Nat.zero_le _, nofun⟩
  rw [exec_of_empty_input hd hy, reject_eq]
  rfl

/-- Settles O13: the front end's second check, on a non-empty input. -/
theorem nonBinarySymbolIsRejected : Obligations.NonBinarySymbolIsRejected := by
  rintro i s ys ⟨d, hd⟩ hy hnb
  rw [exec_of_nonbinary hd hy hnb, reject_eq]
  rfl

/-- Settles O15: the checks in their order, with the four operations that use `N` named. -/
theorem frontEndDecidesTheErrorCode : Obligations.FrontEndDecidesTheErrorCode := by
  rintro i s ys ⟨d, hd⟩ hy
  obtain ⟨t, ht, herr⟩ := exec_err_of_presented hd hy
  refine ⟨t, ht, herr.trans ?_⟩
  cases i <;> simp [usesThreshold, fieldsOfInstr]

/-- Settles O17: the unit's remainder is the division loop's. -/
theorem generateCrcWritesTheRemainder : Obligations.GenerateCrcWritesTheRemainder := by
  intro f s d m hd hm
  rw [exec_generateCrc_accepted hd hm, unitOf, complete_accepted, length_generateCrc, generateCrc_eq_divLoop]
  rfl

/-- Settles O18: the unit's verdict is read from the division loop's register. -/
theorem verifyCrcWritesTheVerdict : Obligations.VerifyCrcWritesTheVerdict := by
  intro f s d c hd hc
  rw [exec_verifyCrc_accepted hd hc, unitOf, complete_accepted, verifyCrc_eq_divLoop]
  rfl

/-- Settles O19: the unit's output is the stuffer loop's. -/
theorem stuffWritesTheStuffedSequence : Obligations.StuffWritesTheStuffedSequence := by
  intro f s b hb hn
  rw [exec_stuff_accepted hb hn, unitOf, complete_accepted, stuffLoop_out]
  rfl

/-- Settles O20: the unit's output is the unstuffer loop's. -/
theorem unstuffWritesTheUnstuffedSequence : Obligations.UnstuffWritesTheUnstuffedSequence := by
  intro f s b hb hn
  rw [exec_unstuff_accepted hb hn, unitOf, complete_accepted, unstuffLoop_out]
  rfl

/-- Settles O21: the codeword takes its remainder from the division loop, the frame is the stuffer loop's on it. -/
theorem encodeFrameWritesFrameAndCodeword : Obligations.EncodeFrameWritesFrameAndCodeword := by
  intro f s d m hd hm hn cw
  have hcw : cw = codeword m d := congrArg (m ++ ·) (generateCrc_eq_divLoop m d).symm
  have hpos : 1 ≤ d.length := one_le_two.trans hd.wellFormed.1
  have hlen : (codeword m d).length = m.length + d.length - 1 := by
    rw [length_codeword, Nat.add_sub_assoc hpos]
  rw [hcw, exec_encodeFrame_accepted hd hm hn, unitOf, complete_accepted, hlen, stuffLoop_out]
  rfl

/-- Settles O22: codeword' is the unstuffer loop's, split at its message', with the division loop's verdict on it. -/
theorem decodeFrameWritesMessageVerdictAndCodeword : Obligations.DecodeFrameWritesMessageVerdictAndCodeword := by
  intro f s d b hd hb hn cw
  have hcw : cw = unstuff b f.n.toNat := unstuffLoop_out b f.n.toNat
  rw [hcw, exec_decodeFrame_accepted hd hb hn, unitOf, complete_accepted, length_messagePart, verifyCrc_eq_divLoop]
  rfl

/-- Settles O30: a rejection has no verdict, and a unit's response has no error. -/
theorem onlyAVerdictSetsValid : Obligations.OnlyAVerdictSetsValid := by
  intro i s t h hvalid
  obtain ⟨o, k, -, -, rfl⟩ | ⟨o, b, -, -, rfl⟩ := exec_next h
  · rw [reject_valid] at hvalid
    cases hvalid
  · rw [complete_valid] at hvalid
    rw [complete_err, unitOf_err]
    exact ⟨rfl, unitOf_valid hvalid⟩

/-- Settles O6: by the equation of a step on a word that decodes. -/
theorem stepPerformsTheDecodedCommand : Obligations.StepPerformsTheDecodedCommand := fun _ _ => step_of_decode_ok

/-- Settles O9: the divisor is accepted and the length fits, so assembly stops at the entry without a value. -/
theorem unwrittenInputIsRefused : Obligations.UnwrittenInputIsRefused := by
  rintro i s ⟨d, hd⟩ hlen hwritten
  exact exec_of_assembleInput_error hd (assembleInput_of_not_written hlen hwritten)

end Sys2Proof.Proofs
end

section
/-! SUPPORT. The division of a sum (40_crc.md R124): each window is chosen by the sum of the two leading symbols, so it is
the sum of the two windows. -/

namespace Sys2Proof.Machine

/-- The windows that two leading symbols choose, on the two sequences one by one and on their sum. -/
theorem xorBits_xorLead_ite (x y : Bool) (d a b : Bits) :
    xorBits (xorLead (if x then d else []) a) (xorLead (if y then d else []) b) =
      xorLead (if x ^^ y then d else []) (xorBits a b) := by
  rw [xorLead_ite_xor, xorBits_xorLead_right, xorBits_xorLead_left]

/-- Sequences shorter than the divisor are left alone (40_crc.md R111), and so is their sum. -/
theorem div2_xorBits_of_short {d a b : Bits} (h : a.length = b.length) (hlt : a.length < d.length) :
    div2 (xorBits a b) d = xorBits (div2 a d) (div2 b d) := by
  have hsum : (xorBits a b).length = a.length := by rw [length_xorBits, h, min_self]
  rw [div2_of_short _ d (hsum.trans_lt hlt), div2_of_short a d hlt, div2_of_short b d (h ▸ hlt)]

/-- The division is linear on sequences of one length (40_crc.md R124, G1): short ones it leaves alone, and of the others
it takes the windows off alike. -/
theorem div2_xorBits {ds a b : Bits} (h : a.length = b.length) :
    div2 (xorBits a b) (true :: ds) = xorBits (div2 a (true :: ds)) (div2 b (true :: ds)) := by
  rcases lt_or_ge a.length ds.length with hlt | hroom
  · exact div2_xorBits_of_short h (Nat.lt_succ_of_lt hlt)
  · induction a, hroom using division_induction generalizing b with
    | noWindow a hlen => exact div2_xorBits_of_short h (Nat.lt_succ_of_le hlen.le)
    | window x a hroom ih =>
      cases b with
      | nil => cases h
      | cons y b =>
        have hlen : a.length = b.length := Nat.succ_injective h
        have hsum : ds.length ≤ (xorBits a b).length := by rwa [length_xorBits, ← hlen, min_self]
        have hwindows : (xorLead (if x then ds else []) a).length = (xorLead (if y then ds else []) b).length := by
          rw [length_xorLead, length_xorLead, hlen]
        rw [xorBits, div2_cons _ hsum, div2_cons _ hroom, div2_cons _ (hroom.trans_eq hlen), xorBits, Bool.xor_self,
          ← ih hwindows, xorBits_xorLead_ite]

end Sys2Proof.Machine
end

section
/-! PROOFS. The statement of 40_crc.md on sums. -/

namespace Sys2Proof.Proofs

open Sys2Proof.Machine

/-- Settles O45: a well-formed divisor leads with a 1. -/
theorem divisionIsLinear : Obligations.DivisionIsLinear := by
  intro a b d hd h
  obtain ⟨ds, rfl, -⟩ := hd.eq_cons
  exact div2_xorBits h

end Sys2Proof.Proofs
end
